-- ==== Sys2Proof/Word.lean ====
section
/-! DEFINITION. The plain types of the block `gf2m_field_rom_tables`: elements, words, error codes, requests, responses.

An element of GF(2^M), a table index and a request or response word are each an unbounded `Nat` whose bit `i` weighs
`2^i`; bit `i` of an element is the coefficient of `x^i` (spec/00_scope.md R2, R10).  Their widths are parameters of the
block (R6), so the bounds are checks (`Instr.wf`, `Request.fits`), not part of the type. -/

namespace Sys2Proof

/-- The four values of the `err` field (spec/60_exceptions.md R140). -/
inductive ErrCode where
  /-- Success. -/
  | ok
  /-- Division by zero, raised by DIV (R142). -/
  | edivz
  /-- Inverse of zero, raised by INV (R143). -/
  | einvz
  /-- Reserved opcode 0x8 to 0xF (R144). -/
  | eillop
deriving DecidableEq, Repr

/-- A request as it travels on `req_op`, `req_a`, `req_b` (spec/30_encoding.md R63; spec/10_state.md R28, R32). -/
structure Request where
  op : BitVec 4
  a : Nat
  b : Nat
deriving DecidableEq, Repr

/-- A response as it travels on `rsp_result`, `rsp_err` (spec/30_encoding.md R64; spec/10_state.md R32). -/
structure Response where
  result : Nat
  err : ErrCode
deriving DecidableEq, Repr

end Sys2Proof
end

