-- ==== Sys2Proof/Config.lean ====
section
/-! DEFINITION. The parameters an elaborated block fixes, and the values the spec leaves free. -/

namespace Sys2Proof

/-- The parameters of the block: the field degree `M` (spec/00_scope.md R6), the reduction polynomial `PRIM_POLY`
(R7) and the queue depth `DEPTH` (R9).  They are a value, not constants, so that every statement is about every
elaborated block; `State.params` holds those of the machine at hand. -/
structure Params where
  m : Nat
  poly : Nat
  depth : Nat
deriving DecidableEq, Repr

/-- `M_MAX` (spec/00_scope.md R6). -/
abbrev Params.mMax : Nat := 16

/-- `FS = 2^M` (spec/00_scope.md R8). -/
def Params.fs (p : Params) : Nat := 2 ^ p.m

/-- `MASK = FS - 1`, where a bit mask is meant (spec/00_scope.md R8). -/
def Params.mask (p : Params) : Nat := p.fs - 1

/-- `ORD = FS - 1`, the modulus of every log index (spec/00_scope.md R8). -/
def Params.ord (p : Params) : Nat := p.fs - 1

/-- The parameters elaboration accepts (spec/00_scope.md R6, R7, R9).  Primitivity is not checked (R7, R92). -/
abbrev Params.Legal (p : Params) : Prop :=
  1 ≤ p.m ∧ p.m ≤ Params.mMax ∧ 2 ^ p.m ≤ p.poly ∧ p.poly < 2 ^ (p.m + 1) ∧ 1 ≤ p.depth

namespace Config

/-- DESIGN CHOICE (log entry 1): the block that `State.reset` elaborates is the source's own worked field, GF(2^4) with
PRIM_POLY = 0x13, and the DEPTH = 2 of the scenarios of spec/95_test_vectors.md section 5.  Unsafe for a statement
about `State.reset` alone; every other statement is for every legal `Params`. -/
def resetParams : Params := { m := 4, poly := 0x13, depth := 2 }

/-- Free value (spec/10_state.md R29; log entry 3): what `rsp_result` carries while `rsp_valid` is 0, one draw a tick. -/
opaque freeResult : Nat → Nat

/-- Free value (spec/10_state.md R29; log entry 3): what `rsp_err` carries while `rsp_valid` is 0, one draw a tick. -/
opaque freeErr : Nat → BitVec 2

/-- Free value (spec/70_reset_and_hazards.md R164; log entry 4): which of the requests a host presented is accepted
when it changed them before the acceptance, one draw a tick. -/
opaque freePick : Nat → Nat

end Config

end Sys2Proof
end

