-- ==== Sys2Proof/Syntax.lean ====
section
/-! DEFINITION. The instructions: one constructor for each row of spec/opcode_table.json. -/

namespace Sys2Proof

/-- The operations of `GF2M-OPS` version 1 (spec/30_encoding.md R65).  A field the spec marks ignored (R67) is no
operand. -/
inductive Instr where
  /-- `ADD a, b` (spec/41_field_arithmetic.md R100). -/
  | add (a b : Nat)
  /-- `SUB a, b` (spec/41_field_arithmetic.md R101). -/
  | sub (a b : Nat)
  /-- `MUL a, b` (spec/41_field_arithmetic.md R102). -/
  | mul (a b : Nat)
  /-- `DIV a, b` (spec/41_field_arithmetic.md R105). -/
  | div (a b : Nat)
  /-- `INV a` (spec/41_field_arithmetic.md R108); the b field is ignored. -/
  | inv (a : Nat)
  /-- `MULRAW a, b` (spec/42_reference_and_readout.md R120). -/
  | mulraw (a b : Nat)
  /-- `EXPRD idx` (spec/42_reference_and_readout.md R121): `idx` is `b[0]` above `a`. -/
  | exprd (idx : Nat)
  /-- `LOGRD a` (spec/42_reference_and_readout.md R122); the b field is ignored. -/
  | logrd (a : Nat)
  /-- A reserved opcode, 0x8 to 0xF (spec/60_exceptions.md R144); both operand fields are ignored. -/
  | reserved (op : BitVec 4)
deriving DecidableEq, Repr

end Sys2Proof
end

