-- ==== Sys2Proof/WellFormed.lean ====
section
/-! DEFINITION. Which instructions and requests the ports of a block can carry. -/

namespace Sys2Proof

/-- An M-bit operand field holds an element below FS (spec/20_memory.md R46). -/
def Params.isElement (p : Params) (x : Nat) : Bool := decide (x < p.fs)

/-- The operands of an instruction fit their fields: elements are M bits wide, EXPRD's index M+1 bits
(spec/30_encoding.md R63, R69, R71), and a reserved opcode is one of 0x8 to 0xF (R65). -/
def Instr.wf (p : Params) (i : Instr) : Bool :=
  match i with
  | .add a b => p.isElement a && p.isElement b
  | .sub a b => p.isElement a && p.isElement b
  | .mul a b => p.isElement a && p.isElement b
  | .div a b => p.isElement a && p.isElement b
  | .inv a => p.isElement a
  | .mulraw a b => p.isElement a && p.isElement b
  | .exprd idx => decide (idx < 2 * p.fs)
  | .logrd a => p.isElement a
  | .reserved op => decide (8 ≤ op.toNat)

/-- The request fits the request ports: `req_a` and `req_b` are M bits wide (spec/30_encoding.md R60). -/
def Request.fits (p : Params) (r : Request) : Bool := p.isElement r.a && p.isElement r.b

end Sys2Proof
end

