-- ==== Sys2Proof/Decode.lean ====
section
/-! DEFINITION. The request and response words, the decoder, and the encoder written from the same table
(spec/30_encoding.md R63 to R69). -/

namespace Sys2Proof

/-- How many bits a request word has: `2·M + 4` (spec/30_encoding.md R63). -/
abbrev requestBits (m : Nat) : Nat := 2 * m + 4

/-- `bits[lo+width-1 : lo]` of a word (spec/00_scope.md R10). -/
def bitField (w : Nat) (lo width : Nat) : Nat := (w >>> lo) % 2 ^ width

/-- The fields of a request word: op at `[3:0]`, a at `[M+3:4]`, b at `[2M+3:M+4]` (spec/30_encoding.md R63). -/
def Request.ofWord (m : Nat) (w : Nat) : Request :=
  { op := BitVec.ofNat 4 (bitField w 0 4), a := bitField w 4 m, b := bitField w (m + 4) m }

/-- `word = op | (a << 4) | (b << (M + 4))` (spec/30_encoding.md R63). -/
def Request.toWord (m : Nat) (r : Request) : Nat := r.op.toNat ||| (r.a <<< 4) ||| (r.b <<< (m + 4))

/-- EXPRD's index, the (M+1)-bit natural `a + FS · (b & 1)` (spec/30_encoding.md R69). -/
def exprdIndex (m : Nat) (a b : Nat) : Nat := a + 2 ^ m * (b &&& 1)

/-- The opcode map (spec/30_encoding.md R65): every request means exactly one instruction, and an ignored field
(R67) is dropped here. -/
def Request.decode (m : Nat) (r : Request) : Instr :=
  match r.op.toNat with
  | 0x0 => .add r.a r.b
  | 0x1 => .sub r.a r.b
  | 0x2 => .mul r.a r.b
  | 0x3 => .div r.a r.b
  | 0x4 => .inv r.a
  | 0x5 => .mulraw r.a r.b
  | 0x6 => .exprd (exprdIndex m r.a r.b)
  | 0x7 => .logrd r.a
  | _ => .reserved r.op

/-- Why a number is no request word. -/
inductive DecodeError where
  /-- The number has bits above `2·M + 3`: it is not below `2^(2M+4)` (spec/30_encoding.md R63, R71). -/
  | wordTooWide
deriving DecidableEq, Repr

/-- The decoder, total on every number: a request word of a degree-M block gives its instruction, every opcode
included (spec/30_encoding.md R68: a reserved opcode is accepted like any other); a wider number is refused by name. -/
def decode (m : Nat) (w : Nat) : Except DecodeError Instr :=
  if w < 2 ^ requestBits m then .ok ((Request.ofWord m w).decode m) else .error .wordTooWide

/-- The op field of an instruction (spec/30_encoding.md R65). -/
def Instr.opcode (i : Instr) : BitVec 4 :=
  match i with
  | .add _ _ => 0x0
  | .sub _ _ => 0x1
  | .mul _ _ => 0x2
  | .div _ _ => 0x3
  | .inv _ => 0x4
  | .mulraw _ _ => 0x5
  | .exprd _ => 0x6
  | .logrd _ => 0x7
  | .reserved op => op

/-- The a field: EXPRD carries `idx & MASK` there, and an ignored field is 0 (spec/30_encoding.md R69, R71). -/
def Instr.fieldA (m : Nat) (i : Instr) : Nat :=
  match i with
  | .add a _ => a
  | .sub a _ => a
  | .mul a _ => a
  | .div a _ => a
  | .inv a => a
  | .mulraw a _ => a
  | .exprd idx => idx &&& (2 ^ m - 1)
  | .logrd a => a
  | .reserved _ => 0

/-- The b field: EXPRD carries `idx >> M` there, and an ignored field is 0 (spec/30_encoding.md R69, R71). -/
def Instr.fieldB (m : Nat) (i : Instr) : Nat :=
  match i with
  | .add _ b => b
  | .sub _ b => b
  | .mul _ b => b
  | .div _ b => b
  | .inv _ => 0
  | .mulraw _ b => b
  | .exprd idx => idx >>> m
  | .logrd _ => 0
  | .reserved _ => 0

/-- The request that carries an instruction. -/
def Instr.request (m : Nat) (i : Instr) : Request :=
  { op := i.opcode, a := i.fieldA m, b := i.fieldB m }

/-- The encoder: the request word of an instruction (spec/30_encoding.md R63, R71). -/
def encode (m : Nat) (i : Instr) : Nat := (i.request m).toWord m

/-- The instruction the decoder of the block that `State.reset` elaborates (M = 4) reads from a table word: the block
has words and no bytes (spec/20_memory.md R41), so the word is given to the decoder as it is, the bits above `nbits`
zero (log entry 9). -/
def decodeTableWord (nbits w : Nat) : Option Instr :=
  match decode Config.resetParams.m (w % 2 ^ nbits) with
  | .ok i => some i
  | .error _ => none

end Sys2Proof
end

