-- ==== Sys2Proof/Machine/Memory.lean ====
section
/-! DEFINITION. A ROM as plain data: a list of (index, entry) pairs in one canonical form. -/

namespace Sys2Proof.Machine

/-- The contents of one table, indexed by ENTRY: the spec has no byte addresses, an index names one whole M-bit entry
(spec/20_memory.md R41, R42), so a cell is (index, entry) and not (address, byte); log entry 2. -/
abbrev Memory : Type := List (Nat × Nat)

/-- What an entry that is not listed reads as: every entry is 0 before the construction's loop
(spec/40_construction.md R81). -/
def Memory.unlisted : Nat := 0

/-- Read one whole entry (spec/20_memory.md R42). -/
def Memory.read (mem : Memory) (i : Nat) : Nat :=
  match mem with
  | [] => Memory.unlisted
  | (k, v) :: rest => if i = k then v else Memory.read rest i

/-- Write one whole entry.  Only the construction writes (spec/20_memory.md R43; spec/40_construction.md R82); writing
what an unlisted entry reads as removes the cell, so equal tables are equal lists. -/
def Memory.write (mem : Memory) (i : Nat) (x : Nat) : Memory :=
  match mem with
  | [] => if x = Memory.unlisted then [] else [(i, x)]
  | (k, v) :: rest =>
    if i < k then (if x = Memory.unlisted then (k, v) :: rest else (i, x) :: (k, v) :: rest)
    else if i = k then (if x = Memory.unlisted then rest else (i, x) :: rest)
    else (k, v) :: Memory.write rest i x

/-- Every index is at least `lo`, the indices rise strictly, and no cell is equal to what an unlisted entry reads as. -/
def Memory.wfFrom (lo : Nat) (mem : Memory) : Bool :=
  match mem with
  | [] => true
  | (k, v) :: rest => decide (lo ≤ k) && decide (v ≠ Memory.unlisted) && Memory.wfFrom (k + 1) rest

/-- The canonical form. -/
def Memory.wf (mem : Memory) : Bool := Memory.wfFrom 0 mem

end Sys2Proof.Machine
end

