-- ==== Sys2Proof/Machine/Construction.lean ====
section
/-! DEFINITION. The raw multiplier and the contents of the two ROMs (spec/40_construction.md). -/

namespace Sys2Proof.Machine

/-- Left-shift `a` by one bit and, if the shifted `a` has bit M set, XOR PRIM_POLY into it
(spec/40_construction.md R84: only bit M of the shifted `a` is tested). -/
def mulAdvance (p : Params) (a : Nat) : Nat :=
  if (a <<< 1) &&& p.fs ≠ 0 then (a <<< 1) ^^^ p.poly else a <<< 1

/-- The `while b != 0` loop of spec/40_construction.md R84, with `fuel` iterations allowed. -/
def mulLoop (p : Params) (fuel : Nat) (a b result : Nat) : Nat :=
  match fuel with
  | 0 => result
  | fuel + 1 =>
    if b = 0 then result
    else mulLoop p fuel (mulAdvance p a) (b >>> 1) (if b &&& 1 = 1 then result ^^^ a else result)

/-- `multiply_raw(a, b)` (spec/40_construction.md R84).  The loop runs once for each bit of `b` up to its highest set
bit (R85), so `log2 b + 1` iterations always finish it. -/
def mulRaw (p : Params) (a b : Nat) : Nat := mulLoop p (Nat.log2 b + 1) a b 0

/-- The generator `g`, the polynomial x (spec/40_construction.md R83). -/
def generator : Nat := 2

/-- The variables of the construction loop (spec/40_construction.md R82). -/
structure Tables where
  exp : Memory
  log : Memory
  x : Nat
deriving DecidableEq, Repr

/-- Before the loop: every entry is 0 and `x` is 1 (spec/40_construction.md R81, R82). -/
def Tables.initial : Tables := { exp := [], log := [], x := 1 }

/-- Iteration `i` of the loop (spec/40_construction.md R82, steps 1 to 3). -/
def Tables.iterate (p : Params) (i : Nat) (t : Tables) : Tables :=
  { exp := (t.exp.write i t.x).write (i + p.fs - 1) t.x
    log := t.log.write t.x i
    x := mulRaw p t.x generator }

/-- The variables after iterations `0, 1, ..., n - 1`, in increasing order. -/
def Tables.after (p : Params) (n : Nat) : Tables :=
  match n with
  | 0 => Tables.initial
  | n + 1 => (Tables.after p n).iterate p n

/-- The contents of `EXP`: exactly `ORD = FS - 1` iterations (spec/40_construction.md R82). -/
def expRom (p : Params) : Memory := (Tables.after p p.ord).exp

/-- The contents of `LOG` (spec/40_construction.md R82). -/
def logRom (p : Params) : Memory := (Tables.after p p.ord).log

/-- The premise `PRIMITIVE(M, PRIM_POLY)`: `EXP[0], ..., EXP[ORD - 1]` are pairwise distinct and none is 0
(spec/40_construction.md R88).  The block neither checks nor reports it (R92). -/
abbrev Primitive (p : Params) : Prop :=
  (∀ i < p.ord, (expRom p).read i ≠ 0) ∧
    ∀ i < p.ord, ∀ j < p.ord, (expRom p).read i = (expRom p).read j → i = j

end Sys2Proof.Machine
end

