-- ==== Sys2Proof/Machine/State.lean ====
section
/-! DEFINITION. Everything the spec gives the block as state, the reasons a step can stop, and the state after reset. -/

namespace Sys2Proof.Machine

/-- One clock cycle as it stands in the schedule (log entry 5): the input ports the rising edge that ends it samples
(spec/30_encoding.md R60, R61), and the two choices the spec leaves to the implementation in it.  Timing is no state of
the block; it is left to the schedule (spec/10_state.md R32). -/
structure Cycle where
  /-- `rst` (R160). -/
  rst : Bool
  /-- `req_valid`. -/
  reqValid : Bool
  /-- `req_op`, `req_a`, `req_b`. -/
  req : Request
  /-- `rsp_ready`. -/
  rspReady : Bool
  /-- The implementation's choice to drive `req_ready = 1` where it may (spec/20_memory.md R47). -/
  ready : Bool
  /-- The implementation's choice to offer, from this cycle on, the response of the oldest request: it decides that
  request's `LATENCY` (spec/00_scope.md R9). -/
  offer : Bool
deriving DecidableEq, Repr

/-- The cycle in which no input is 1 and the block does nothing. -/
def Cycle.quiet : Cycle :=
  { rst := false, reqValid := false, req := { op := 0, a := 0, b := 0 }, rspReady := false, ready := false, offer := false }

/-- The cycle that stands past the end of the schedule (log entry 5): the host presents nothing and takes every response,
and the block is willing to answer and to accept, as the progress of spec/70_reset_and_hazards.md R169 asks. -/
def Cycle.willing : Cycle := { Cycle.quiet with rspReady := true, ready := true, offer := true }

/-- The state just after a rising edge of `clk`. -/
structure State where
  /-- M and PRIM_POLY, constant on `cfg_m` and `cfg_poly` (spec/10_state.md R23), and DEPTH (spec/00_scope.md R9). -/
  params : Params
  /-- The exponent ROM (spec/10_state.md R25). -/
  exp : Memory
  /-- The logarithm ROM (spec/10_state.md R26). -/
  log : Memory
  /-- The in-flight queue `Q`, oldest first (spec/10_state.md R28). -/
  q : List Request
  /-- The response the block offers: `some` exactly while `rsp_valid` is 1, holding `rsp_result` and `rsp_err`
  (spec/10_state.md R29). -/
  rsp : Option Response
  /-- `req_ready`, as driven in the cycle the last edge ended (spec/20_memory.md R47). -/
  reqReady : Bool
  /-- The requests the host has presented with `req_valid = 1` since the last acceptance or reset, without repeats: the
  values R164 of spec/70_reset_and_hazards.md lets a model accept when the host breaks its duty. -/
  presented : List Request
  /-- The cycles to come (log entry 5). -/
  schedule : List Cycle
  /-- The responses the host has taken, in order: the host's record, read by no step (log entry 6). -/
  taken : List Response
  /-- The model's own counter of cycles, the argument of the free values of `Config` (log entries 3 and 4). -/
  tick : Nat
deriving DecidableEq, Repr

/-- Why the model stops.  Neither reason is reached from a well-formed instruction on a legal block
(spec/20_memory.md R46). -/
inductive Fault where
  /-- Raised by `State.readExp` for an index outside `[0, 2·FS)`: no such entry exists (spec/10_state.md R25).  Safe. -/
  | expIndexOutOfRange (i : Nat)
  /-- Raised by `State.readLog` for an index outside `[0, FS)`: no such entry exists (spec/10_state.md R26).  Safe. -/
  | logIndexOutOfRange (i : Nat)
deriving DecidableEq, Repr

/-- Why the model refuses. -/
inductive Refusal where
  /-- Raised by an arm of `exec` for an instruction without a meaning; no arm raises it.  Safe. -/
  | notModelled (mnemonic : String)
deriving DecidableEq, Repr

/-- The outcome of a step of this machine. -/
abbrev Result : Type := Host.Outcome State Fault Refusal

/-- A block with parameters `p` right after reset, nothing in flight and nothing scheduled
(spec/10_state.md R31; spec/70_reset_and_hazards.md R160): the ROMs and the configuration outputs are the constants of
the parameters, `Q` is empty, `rsp_valid` is 0 and `req_ready` is 0. -/
def State.fresh (p : Params) : State :=
  { params := p, exp := expRom p, log := logRom p, q := [], rsp := none, reqReady := false, presented := [],
    schedule := [], taken := [], tick := 0 }

/-- The machine right after reset (spec/10_state.md R31), elaborated with `Config.resetParams` (log entry 1). -/
def State.reset : State := State.fresh Config.resetParams

end Sys2Proof.Machine
end

