-- ==== Sys2Proof/Machine/Ops.lean ====
section
/-! DEFINITION. The named operations over the state: reading the ROMs, answering a request, and what a clock cycle does
with the handshake. -/

namespace Sys2Proof.Machine

/-- Read `EXP[i]` and go on with the entry (spec/00_scope.md R12; spec/10_state.md R25).  No other index exists; the
block forms none (spec/20_memory.md R46). -/
def State.readExp (s : State) (i : Nat) (k : Nat → Result) : Result :=
  if i < 2 * s.params.fs then k (s.exp.read i) else .fault (.expIndexOutOfRange i)

/-- Read `LOG[i]` and go on with the entry (spec/00_scope.md R12; spec/10_state.md R26). -/
def State.readLog (s : State) (i : Nat) (k : Nat → Result) : Result :=
  if i < s.params.fs then k (s.log.read i) else .fault (.logIndexOutOfRange i)

/-- The state in which the block offers the response `(result, err)`. -/
def State.offering (s : State) (result : Nat) (err : ErrCode) : State :=
  { s with rsp := some { result := result, err := err } }

/-- `respond(result, err)`: produce the response of the current request, the oldest of `Q`, on `rsp_result` and
`rsp_err` (spec/00_scope.md R12; spec/20_memory.md R48).  It leaves `Q` when the host takes the response. -/
def State.respond (s : State) (result : Nat) (err : ErrCode) : Result := .next (s.offering result err)

/-- `raise E()`, the block's only exception: the request finishes with `result = 0` and the error code, and nothing else
changes (spec/60_exceptions.md R141).  There is no trap entry and no return from one (R148). -/
def State.raise (s : State) (e : ErrCode) : Result := s.respond 0 e

/-- Go on from a next state; a fault or a refusal stays. -/
def andThen (r : Result) (k : State → Result) : Result :=
  match r with
  | .next s => k s
  | .fault f => .fault f
  | .refused f => .refused f

/-- The model's step `accept(r)`: the request joins the tail of `Q` (spec/20_memory.md R47). -/
def State.accept (s : State) (r : Request) : State := { s with q := s.q ++ [r], presented := [] }

/-- The model's step `respond`: the host takes the response on offer and the oldest request leaves `Q`
(spec/20_memory.md R48). -/
def State.takeResponse (s : State) : State :=
  match s.rsp with
  | some r => { s with q := s.q.tail, rsp := none, taken := s.taken ++ [r] }
  | none => s

/-- The model's step `reset`: `Q` is emptied and `rsp_valid` and `req_ready` are 0; the ROMs and the configuration
outputs stay (spec/70_reset_and_hazards.md R160).  A request in flight gets no response (R161).  DESIGN CHOICE
(log entry 15): a response on offer falls at this edge, not earlier in the first cycle with `rst = 1`. -/
def State.resetEdge (s : State) : State := { s with q := [], rsp := none, reqReady := false, presented := [] }

/-- The cycle that comes next; past the end of the schedule it is the willing one, so that every run of the
machine is weakly fair (spec/70_reset_and_hazards.md R169; log entry 5). -/
def State.nextCycle (s : State) : Cycle :=
  match s.schedule with
  | [] => Cycle.willing
  | c :: _ => c

/-- What `req_ready` carries in cycle `c`: 0 under reset (spec/70_reset_and_hazards.md R160), 0 when the cycle starts
with DEPTH requests in `Q`, and the implementation's choice otherwise (spec/20_memory.md R47).  It does not depend on
`req_valid` (spec/70_reset_and_hazards.md R165).  That it is 0 in the whole of a cycle with `rst = 1`, the first included,
is a DESIGN CHOICE (log entry 15). -/
def State.drivesReady (s : State) (c : Cycle) : Bool :=
  !c.rst && decide (s.q.length < s.params.depth) && c.ready

/-- The cycle begins: it leaves the schedule and `req_ready` is driven. -/
def State.beginCycle (s : State) (c : Cycle) : State :=
  { s with schedule := s.schedule.tail, tick := s.tick + 1, reqReady := s.drivesReady c }

/-- The request whose response the block starts to offer in cycle `c`: the oldest of `Q`, if no response is on offer yet
(it is then held, spec/70_reset_and_hazards.md R165), `rst` is 0 and the implementation chooses to.  Never one of an
empty `Q` (R165). -/
def State.issues (s : State) (c : Cycle) : Option Request :=
  if !c.rst && c.offer && s.rsp.isNone then s.q.head? else none

/-- The requests presented, with the one the host presents at this edge. -/
def State.withPresented (s : State) (r : Request) : List Request :=
  if r ∈ s.presented then s.presented else s.presented ++ [r]

/-- Which request an acceptance accepts: the one on the ports when the host kept it unchanged since it first presented
it; otherwise any one of those it presented, a free value (spec/70_reset_and_hazards.md R164; log entry 4). -/
def State.accepts (s : State) (r : Request) : Request :=
  if s.withPresented r = [r] then r
  else (s.withPresented r).getD (Config.freePick s.tick % (s.withPresented r).length) r

/-- The response channel at an edge: the response transfers when `rsp_valid` and `rsp_ready` are 1
(spec/30_encoding.md R62; spec/20_memory.md R48). -/
def State.responseEdge (s : State) (c : Cycle) : State := if c.rspReady then s.takeResponse else s

/-- The request channel at an edge: a request transfers when `req_valid` and `req_ready` are 1
(spec/30_encoding.md R62; spec/20_memory.md R47); one that waits is remembered as presented. -/
def State.requestEdge (s : State) (c : Cycle) : State :=
  if c.reqValid then
    if s.reqReady then s.accept (s.accepts c.req) else { s with presented := s.withPresented c.req }
  else s

/-- The rising edge that ends cycle `c`.  With `rst = 1` it resets and ignores every other input
(spec/70_reset_and_hazards.md R160); otherwise a response leaves the old head of `Q` before an accepted request joins
the tail (spec/20_memory.md R47). -/
def State.edge (s : State) (c : Cycle) : State :=
  if c.rst then s.resetEdge else (s.responseEdge c).requestEdge c

/-- The cycle in which the block starts to offer the oldest request's response, and the host neither presents a request
nor takes a response. -/
def Cycle.offersOnly : Cycle := { Cycle.quiet with offer := true }

/-- A request stored where step fetches its next instruction, the head of `Q`, and a next cycle that answers it: nothing
is on offer yet, and the block starts to offer in that cycle (log entry 9). -/
def State.placeOldest (s : State) (r : Request) : State :=
  { s with q := r :: s.q.tail, rsp := none, schedule := Cycle.offersOnly :: s.schedule }

end Sys2Proof.Machine
end

