-- ==== Sys2Proof/Machine/AddSub.lean ====
section
/-! DEFINITION. ADD and SUB, the datapath part `gf2m_add_sub` (spec/41_field_arithmetic.md section 1). -/

namespace Sys2Proof.Machine

/-- `ADD a, b`: `respond(a ^ b, 0)` (spec/41_field_arithmetic.md R100). -/
def execAdd (a b : Nat) (s : State) : Result := s.respond (a ^^^ b) .ok

/-- `SUB a, b`: `respond(a ^ b, 0)`, ADD's response bit for bit (spec/41_field_arithmetic.md R101). -/
def execSub (a b : Nat) (s : State) : Result := s.respond (a ^^^ b) .ok

end Sys2Proof.Machine
end

