-- ==== Sys2Proof/Machine/Operands.lean ====
section
/-! DEFINITION. The table indices an operation forms from its operands.  Every operand is an unsigned M-bit natural, used
as given (spec/30_encoding.md R69); EXPRD's index is assembled by the decoder (`exprdIndex`). -/

namespace Sys2Proof.Machine

/-- The Euclidean remainder `x mod n` of an integer, in `[0, n)` (spec/00_scope.md R11). -/
def eucMod (x : Int) (n : Nat) : Nat := (x % (n : Int)).toNat

/-- MUL's index, `(LOG[a] + LOG[b]) mod ORD` (spec/41_field_arithmetic.md R102, R103). -/
def mulIndex (p : Params) (la lb : Nat) : Nat := (la + lb) % p.ord

/-- DIV's index, `(LOG[a] - LOG[b]) mod ORD`: the difference is a mathematical integer
(spec/41_field_arithmetic.md R105, R106). -/
def divIndex (p : Params) (la lb : Nat) : Nat := eucMod ((la : Int) - (lb : Int)) p.ord

/-- INV's index, `(0 - LOG[a]) mod ORD` (spec/41_field_arithmetic.md R108). -/
def invIndex (p : Params) (la : Nat) : Nat := eucMod (0 - (la : Int)) p.ord

/-- MUL's index into the doubled table, the raw sum, which an implementation may use (spec/41_field_arithmetic.md R103). -/
def mulIndexDoubled (la lb : Nat) : Nat := la + lb

/-- DIV's index into the doubled table, `LOG[a] + (ORD - LOG[b])`, which an implementation may use
(spec/41_field_arithmetic.md R106). -/
def divIndexDoubled (p : Params) (la lb : Nat) : Nat := la + (p.ord - lb)

/-- INV's index into the doubled table, `ORD - LOG[a]`, which an implementation may use
(spec/41_field_arithmetic.md R108). -/
def invIndexDoubled (p : Params) (la : Nat) : Nat := p.ord - la

end Sys2Proof.Machine
end

