-- ==== Sys2Proof/Machine/DivideInverse.lean ====
section
/-! DEFINITION. DIV and INV, the datapath part `gf2m_divide_inverse` (spec/41_field_arithmetic.md section 3). -/

namespace Sys2Proof.Machine

/-- `DIV a, b`: EDIVZ if the divisor is 0, tested first; 0 if the dividend is 0; otherwise
`EXP[(LOG[a] - LOG[b]) mod ORD]` (spec/41_field_arithmetic.md R105; spec/60_exceptions.md R142, R146). -/
def execDiv (a b : Nat) (s : State) : Result :=
  if b = 0 then s.raise .edivz
  else if a = 0 then s.respond 0 .ok
  else
    s.readLog a fun la =>
      s.readLog b fun lb =>
        s.readExp (divIndex s.params la lb) fun y => s.respond y .ok

/-- `INV a`: EINVZ if the operand is 0; otherwise `EXP[(0 - LOG[a]) mod ORD]` (spec/41_field_arithmetic.md R108;
spec/60_exceptions.md R143). -/
def execInv (a : Nat) (s : State) : Result :=
  if a = 0 then s.raise .einvz
  else
    s.readLog a fun la =>
      s.readExp (invIndex s.params la) fun y => s.respond y .ok

end Sys2Proof.Machine
end

