-- ==== Sys2Proof/Machine/Multiply.lean ====
section
/-! DEFINITION. MUL, the datapath part `gf2m_multiply_lookup` (spec/41_field_arithmetic.md section 2). -/

namespace Sys2Proof.Machine

/-- `MUL a, b`: 0 if an operand is 0, tested before any table read; otherwise `EXP[(LOG[a] + LOG[b]) mod ORD]`
(spec/41_field_arithmetic.md R102). -/
def execMul (a b : Nat) (s : State) : Result :=
  if a = 0 ∨ b = 0 then s.respond 0 .ok
  else
    s.readLog a fun la =>
      s.readLog b fun lb =>
        s.readExp (mulIndex s.params la lb) fun y => s.respond y .ok

end Sys2Proof.Machine
end

