-- ==== Sys2Proof/Machine/Reference.lean ====
section
/-! DEFINITION. MULRAW, EXPRD and LOGRD (spec/42_reference_and_readout.md). -/

namespace Sys2Proof.Machine

/-- `MULRAW a, b`: the carry-less multiply with reduction, part `carry_less_multiply_reduce`; it reads no ROM
(spec/42_reference_and_readout.md R120). -/
def execMulraw (a b : Nat) (s : State) : Result := s.respond (mulRaw s.params a b) .ok

/-- `EXPRD idx`: one entry of the exponent ROM (spec/42_reference_and_readout.md R121). -/
def execExprd (idx : Nat) (s : State) : Result := s.readExp idx fun y => s.respond y .ok

/-- `LOGRD a`: one entry of the logarithm ROM; `LOGRD 0` is no error (spec/42_reference_and_readout.md R122). -/
def execLogrd (a : Nat) (s : State) : Result := s.readLog a fun y => s.respond y .ok

end Sys2Proof.Machine
end

