-- ==== Sys2Proof/Machine/Reserved.lean ====
section
/-! DEFINITION. The reserved opcodes (spec/60_exceptions.md R144). -/

namespace Sys2Proof.Machine

/-- A request whose opcode is 0x8 to 0xF raises EILLOP, whichever of them it is and whatever its fields hold
(spec/60_exceptions.md R144; spec/30_encoding.md R68). -/
def execReserved (_op : BitVec 4) (s : State) : Result := s.raise .eillop

end Sys2Proof.Machine
end

