-- ==== Sys2Proof/Machine/Dispatch.lean ====
section
/-! DEFINITION. Which meaning answers which instruction (spec/30_encoding.md R66). -/

namespace Sys2Proof.Machine

def exec (i : Instr) (s : State) : Host.Outcome State Fault Refusal :=
  match i with
  | .add a b => Sys2Proof.Machine.execAdd a b s
  | .sub a b => Sys2Proof.Machine.execSub a b s
  | .mul a b => Sys2Proof.Machine.execMul a b s
  | .div a b => Sys2Proof.Machine.execDiv a b s
  | .inv a => Sys2Proof.Machine.execInv a s
  | .mulraw a b => Sys2Proof.Machine.execMulraw a b s
  | .exprd idx => Sys2Proof.Machine.execExprd idx s
  | .logrd a => Sys2Proof.Machine.execLogrd a s
  | .reserved op => Sys2Proof.Machine.execReserved op s

end Sys2Proof.Machine
end

