-- ==== Sys2Proof/Machine/Drive.lean ====
section
/-! DEFINITION. One clock cycle: the block fetches, decodes and executes the request it starts to answer, and the rising
edge then samples the inputs. -/

namespace Sys2Proof.Machine

/-- The state in the middle of cycle `c`, `s` being the state at its start with the cycle begun: if the block starts to
offer a response in it, the oldest request is fetched from `Q`, decoded and executed (spec/20_memory.md R48;
spec/30_encoding.md R66).  DESIGN CHOICE (log entry 15): with `rst = 1` none starts, and one already on offer stays on
offer until the edge. -/
def State.drive (s : State) (c : Cycle) : Result :=
  match s.issues c with
  | some r => exec (r.decode s.params.m) s
  | none => .next s

/-- The clock cycle `c` (spec/30_encoding.md R61): the block drives its outputs, then the rising edge samples the inputs.
An accepted request is offered in a later cycle than the one its edge ends, so every LATENCY is at least 1
(spec/00_scope.md R9; log entry 8). -/
def State.inCycle (s : State) (c : Cycle) : Result :=
  andThen ((s.beginCycle c).drive c) fun t => .next (t.edge c)

end Sys2Proof.Machine
end

