-- ==== Sys2Proof/Machine/Step.lean ====
section
/-! DEFINITION. One step is one clock cycle, the one that comes next. -/

namespace Sys2Proof.Machine

/-- One clock cycle (spec/30_encoding.md R61), the next of the schedule (log entries 5 and 8). -/
def step (s : State) : Host.Outcome State Fault Refusal := s.inCycle s.nextCycle

/-- `s` with a table word stored where step fetches its next instruction, the head of `Q`, and the next cycle one that
runs it: nothing is on offer yet, and the block offers in that cycle (log entry 9). -/
def State.withFetchWord (s : State) (nbits w : Nat) : State :=
  s.placeOldest (Request.ofWord s.params.m (w % 2 ^ nbits))

end Sys2Proof.Machine
end

