-- ==== Sys2Proof/Machine/Assembler.lean ====
section
/-! DEFINITION. The assembler of spec/30_encoding.md section 4, and the source's five calls as requests (R70 to R72).
It is no part of the block and no step uses it; M is given to it (R71). -/

namespace Sys2Proof.Machine

/-- One line of a program after parsing: a form of spec/30_encoding.md R71 or a pseudo-instruction of R72. -/
inductive Asm where
  | add (a b : Nat)
  | sub (a b : Nat)
  | mul (a b : Nat)
  | div (a b : Nat)
  | mulraw (a b : Nat)
  | inv (a : Nat)
  | logrd (a : Nat)
  | exprd (idx : Nat)
  | req (w : Nat)
  | xor (a b : Nat)
  | mov (a : Nat)
  | neg (a : Nat)
  | sqr (a : Nat)
  | clmul (a b : Nat)
deriving DecidableEq, Repr

/-- Why the assembler refuses a line (spec/30_encoding.md R71). -/
inductive AsmError where
  /-- The first word is no mnemonic of R71 or R72. -/
  | unknownMnemonic
  /-- The mnemonic takes another number of operands. -/
  | operandCount
  /-- An operand is no unsigned integer in decimal, `0x` hex or `0b` binary. -/
  | badNumber
  /-- An element operand is not below FS. -/
  | elementTooLarge
  /-- An EXPRD index is not below 2·FS. -/
  | indexTooLarge
  /-- A `.req` word is not below `2^(2M+4)`. -/
  | wordTooLarge
deriving DecidableEq, Repr

/-- An element operand, refused when it is not below FS (spec/30_encoding.md R71). -/
def asmElement (m : Nat) (x : Nat) : Except AsmError Nat :=
  if x < 2 ^ m then .ok x else .error .elementTooLarge

/-- A form with two element operands. -/
def asmPair (m : Nat) (f : Nat → Nat → Instr) (a b : Nat) : Except AsmError Nat :=
  match asmElement m a, asmElement m b with
  | .ok a, .ok b => .ok (encode m (f a b))
  | .error e, _ => .error e
  | _, .error e => .error e

/-- A form with one element operand. -/
def asmSingle (m : Nat) (f : Nat → Instr) (a : Nat) : Except AsmError Nat :=
  match asmElement m a with
  | .ok a => .ok (encode m (f a))
  | .error e => .error e

/-- The request word of a line (spec/30_encoding.md R71), each pseudo-instruction expanded to one request (R72). -/
def assemble (m : Nat) (l : Asm) : Except AsmError Nat :=
  match l with
  | .add a b => asmPair m .add a b
  | .sub a b => asmPair m .sub a b
  | .mul a b => asmPair m .mul a b
  | .div a b => asmPair m .div a b
  | .mulraw a b => asmPair m .mulraw a b
  | .inv a => asmSingle m .inv a
  | .logrd a => asmSingle m .logrd a
  | .exprd idx => if idx < 2 * 2 ^ m then .ok (encode m (.exprd idx)) else .error .indexTooLarge
  | .req w => if w < 2 ^ requestBits m then .ok w else .error .wordTooLarge
  | .xor a b => asmPair m .add a b
  | .mov a => asmPair m .add a 0
  | .neg a => asmPair m .add a 0
  | .sqr a => asmPair m .mul a a
  | .clmul a b => asmPair m .mulraw a b

/-- The value of a digit in base `base`. -/
def asmDigit (base : Nat) (c : Char) : Option Nat :=
  let n := c.toNat
  let v := if 48 ≤ n ∧ n ≤ 57 then n - 48
    else if 97 ≤ n ∧ n ≤ 102 then n - 87
    else if 65 ≤ n ∧ n ≤ 70 then n - 55
    else base
  if v < base then some v else none

/-- A run of digits, most significant first, after the value read so far. -/
def asmDigits (base acc : Nat) (cs : List Char) : Option Nat :=
  match cs with
  | [] => some acc
  | c :: rest =>
    match asmDigit base c with
    | some v => asmDigits base (acc * base + v) rest
    | none => none

/-- A number: decimal, `0x` hex or `0b` binary (spec/30_encoding.md R71). -/
def asmNumber (cs : List Char) : Except AsmError Nat :=
  let read := match cs with
    | '0' :: 'x' :: d :: rest => asmDigits 16 0 (d :: rest)
    | '0' :: 'b' :: d :: rest => asmDigits 2 0 (d :: rest)
    | d :: rest => asmDigits 10 0 (d :: rest)
    | [] => none
  match read with
  | some n => .ok n
  | none => .error .badNumber

/-- A space, a tab or a carriage return. -/
def asmBlank (c : Char) : Bool := c = ' ' || c = '\t' || c = '\r'

/-- A line without the blanks at its two ends. -/
def asmTrim (cs : List Char) : List Char := ((cs.dropWhile asmBlank).reverse.dropWhile asmBlank).reverse

/-- A line up to its comment: `;` starts one (spec/30_encoding.md R71). -/
def asmUncomment (cs : List Char) : List Char := cs.takeWhile (fun c => c ≠ ';')

/-- The pieces between the separators `sep`, at least one. -/
def asmSplit (sep : Char) (cs : List Char) : List (List Char) :=
  match cs with
  | [] => [[]]
  | c :: rest =>
    if c = sep then [] :: asmSplit sep rest
    else
      match asmSplit sep rest with
      | piece :: pieces => (c :: piece) :: pieces
      | [] => [[c]]

/-- All the operands of a line, as numbers. -/
def asmOperands (pieces : List (List Char)) : Except AsmError (List Nat) :=
  match pieces with
  | [] => .ok []
  | piece :: rest =>
    match asmNumber (asmTrim piece), asmOperands rest with
    | .ok n, .ok ns => .ok (n :: ns)
    | .error e, _ => .error e
    | _, .error e => .error e

/-- The forms with two operands, by mnemonic in lower case: mnemonics are case-insensitive (spec/30_encoding.md R71). -/
def asmBinary (mnemonic : List Char) : Option (Nat → Nat → Asm) :=
  if mnemonic = ['a', 'd', 'd'] then some .add
  else if mnemonic = ['s', 'u', 'b'] then some .sub
  else if mnemonic = ['m', 'u', 'l'] then some .mul
  else if mnemonic = ['d', 'i', 'v'] then some .div
  else if mnemonic = ['m', 'u', 'l', 'r', 'a', 'w'] then some .mulraw
  else if mnemonic = ['x', 'o', 'r'] then some .xor
  else if mnemonic = ['c', 'l', 'm', 'u', 'l'] then some .clmul
  else none

/-- The forms with one operand, by mnemonic in lower case. -/
def asmUnary (mnemonic : List Char) : Option (Nat → Asm) :=
  if mnemonic = ['i', 'n', 'v'] then some .inv
  else if mnemonic = ['l', 'o', 'g', 'r', 'd'] then some .logrd
  else if mnemonic = ['e', 'x', 'p', 'r', 'd'] then some .exprd
  else if mnemonic = ['.', 'r', 'e', 'q'] then some .req
  else if mnemonic = ['m', 'o', 'v'] then some .mov
  else if mnemonic = ['n', 'e', 'g'] then some .neg
  else if mnemonic = ['s', 'q', 'r'] then some .sqr
  else none

/-- A mnemonic with its operands. -/
def asmForm (mnemonic : List Char) (operands : List Nat) : Except AsmError Asm :=
  match asmBinary mnemonic, asmUnary mnemonic, operands with
  | some f, _, [a, b] => .ok (f a b)
  | none, some f, [a] => .ok (f a)
  | none, none, _ => .error .unknownMnemonic
  | _, _, _ => .error .operandCount

/-- One line of a program: nothing (a blank or comment line), or one request (spec/30_encoding.md R71). -/
def asmLine (line : List Char) : Except AsmError (Option Asm) :=
  let text := asmTrim (asmUncomment line)
  match text with
  | [] => .ok none
  | _ =>
    let mnemonic := (text.takeWhile (fun c => !asmBlank c)).map Char.toLower
    let operands := asmTrim (text.dropWhile (fun c => !asmBlank c))
    match asmOperands (if operands = [] then [] else asmSplit ',' operands) with
    | .error e => .error e
    | .ok ns =>
      match asmForm mnemonic ns with
      | .error e => .error e
      | .ok l => .ok (some l)

/-- The request words of the lines of a program, in order, or the first line's refusal. -/
def asmLines (m : Nat) (lines : List (List Char)) : Except AsmError (List Nat) :=
  match lines with
  | [] => .ok []
  | line :: rest =>
    match asmLine line with
    | .error e => .error e
    | .ok none => asmLines m rest
    | .ok (some l) =>
      match assemble m l with
      | .error e => .error e
      | .ok w =>
        match asmLines m rest with
        | .error e => .error e
        | .ok ws => .ok (w :: ws)

/-- A program text: one request a line (spec/30_encoding.md R71). -/
def assembleText (m : Nat) (text : List Char) : Except AsmError (List Nat) := asmLines m (asmSplit '\n' text)

/-- The five calls of the source's interface, the handle left out: one elaborated block is one field
(spec/30_encoding.md R65, R70). -/
inductive SourceCall where
  | add (a b : Nat)
  | subtract (a b : Nat)
  | multiply (a b : Nat)
  | divide (a b : Nat)
  | inverse (a : Nat)
deriving DecidableEq, Repr

/-- The request each source call maps to (spec/30_encoding.md R70). -/
def SourceCall.instr (c : SourceCall) : Instr :=
  match c with
  | .add a b => .add a b
  | .subtract a b => .sub a b
  | .multiply a b => .mul a b
  | .divide a b => .div a b
  | .inverse a => .inv a

/-- The source's two domain errors (spec/60_exceptions.md R140). -/
inductive DomainError where
  | divisionByZero
  | inverseOfZero
deriving DecidableEq, Repr

/-- How a response maps back to a source call's value or failure; no source call gets an EILLOP response
(spec/30_encoding.md R70). -/
def sourceValue (r : Response) : Option (Except DomainError Nat) :=
  match r.err with
  | .ok => some (.ok r.result)
  | .edivz => some (.error .divisionByZero)
  | .einvz => some (.error .inverseOfZero)
  | .eillop => none

end Sys2Proof.Machine
end

