-- ==== Sys2Proof/Machine/Elaborate.lean ====
section
/-! DEFINITION. Elaboration: which parameters make a block (spec/00_scope.md R6, R7, R9; spec/40_construction.md R80). -/

namespace Sys2Proof.Machine

/-- Why elaboration refuses parameters. -/
inductive ElabError where
  /-- M is not in `[1, M_MAX]` (spec/00_scope.md R6). -/
  | degree
  /-- PRIM_POLY lacks bit M or has a higher bit (spec/00_scope.md R7). -/
  | polynomial
  /-- DEPTH is 0 (spec/00_scope.md R9). -/
  | depth
deriving DecidableEq, Repr

/-- Elaboration: the ROMs are computed from the parameters, once, and the block is as after its first reset; parameters
of an illegal shape are refused, and primitivity is not tested (spec/00_scope.md R6, R7; spec/40_construction.md R80,
R92). -/
def elaborate (p : Params) : Except ElabError State :=
  if ¬(1 ≤ p.m ∧ p.m ≤ Params.mMax) then .error .degree
  else if ¬(2 ^ p.m ≤ p.poly ∧ p.poly < 2 ^ (p.m + 1)) then .error .polynomial
  else if p.depth = 0 then .error .depth
  else .ok (State.fresh p)

end Sys2Proof.Machine
end

