-- ==== Sys2Proof/Machine/Flags.lean ====
section
/-! DEFINITION. The only status a request yields, the error code, and the response word that carries it.  The block has
no flags, condition codes or predicates (spec/10_state.md R22). -/

namespace Sys2Proof.Machine

/-- The number of an error code on `rsp_err` (spec/60_exceptions.md R140). -/
def errCode (e : ErrCode) : BitVec 2 :=
  match e with
  | .ok => 0
  | .edivz => 1
  | .einvz => 2
  | .eillop => 3

/-- The response word, `result | (err << M)` (spec/30_encoding.md R64). -/
def responseWord (m : Nat) (r : Response) : Nat := r.result ||| ((errCode r.err).toNat <<< m)

end Sys2Proof.Machine
end

