-- ==== Sys2Proof/Machine/Ports.lean ====
section
/-! DEFINITION. The output ports of the block (spec/30_encoding.md R60), computed from the state. -/

namespace Sys2Proof.Machine

/-- `cfg_m`, 5 bits: the constant M (spec/10_state.md R23). -/
def State.cfgM (s : State) : BitVec 5 := BitVec.ofNat 5 s.params.m

/-- `cfg_poly`, M+1 bits: the constant PRIM_POLY (spec/10_state.md R23). -/
def State.cfgPoly (s : State) : BitVec (s.params.m + 1) := BitVec.ofNat (s.params.m + 1) s.params.poly

/-- `rsp_valid`: 1 exactly while a response is on offer (spec/10_state.md R29). -/
def State.rspValid (s : State) : Bool := s.rsp.isSome

/-- `rsp_result`, M bits: the result on offer; while `rsp_valid` is 0, any value (spec/10_state.md R29; log entry 3). -/
def State.rspResult (s : State) : BitVec s.params.m :=
  match s.rsp with
  | some r => BitVec.ofNat s.params.m r.result
  | none => BitVec.ofNat s.params.m (Config.freeResult s.tick)

/-- `rsp_err`, 2 bits: the error code on offer; while `rsp_valid` is 0, any value (spec/10_state.md R29; log entry 3). -/
def State.rspErr (s : State) : BitVec 2 :=
  match s.rsp with
  | some r => errCode r.err
  | none => Config.freeErr s.tick

end Sys2Proof.Machine
end

