-- ==== Sys2Proof/Safety.lean ====
section
/-! DEFINITION. What the statements speak of: the answer to a request, what a legal and a fair run look like, and
the transaction-level machine of spec/10_state.md R32. -/

namespace Sys2Proof.Machine

/-- The response the block offers once an instruction has run, if it runs. -/
def answer (i : Instr) (s : State) : Option Response :=
  match exec i s with
  | .next t => t.rsp
  | .fault _ => none
  | .refused _ => none

/-- The `result` of that response; 0 where there is none (a statement that uses it says that there is one). -/
def resultOf (i : Instr) (s : State) : Nat :=
  match answer i s with
  | some r => r.result
  | none => 0

/-- `eval(op, a, b)` of spec/30_encoding.md R66, the response of a request as a function of the request and the parameters
alone: what a freshly elaborated block answers. -/
def eval (p : Params) (r : Request) : Option Response := answer (r.decode p.m) (State.fresh p)

/-- The parameters are legal and the ROMs are the constants of the parameters (spec/10_state.md R27).  It holds from
power-up on, before any reset (spec/70_reset_and_hazards.md R162). -/
structure State.Built (s : State) : Prop where
  legal : s.params.Legal
  exp_eq : s.exp = expRom s.params
  log_eq : s.log = logRom s.params

/-- Every request that a host presents in the schedule fits the request ports (spec/30_encoding.md R60). -/
abbrev State.PortsFit (s : State) : Prop := ∀ c ∈ s.schedule, c.req.fits s.params = true

/-- What holds of a block in use: it is built; `Q` holds at most DEPTH requests (spec/10_state.md R28); every request it
holds, has been shown or will be shown fits the ports; and the response on offer, if there is one, is that of the
oldest request of `Q` (spec/10_state.md R29). -/
structure State.Inv (s : State) : Prop where
  built : s.Built
  depth : s.q.length ≤ s.params.depth
  queueFits : ∀ r ∈ s.q, r.fits s.params = true
  presentedFits : ∀ r ∈ s.presented, r.fits s.params = true
  portsFit : s.PortsFit
  offered : s.rsp = none ∨ s.rsp = s.q.head?.bind (eval s.params)

/-- Whether a response is on offer in cycle `c`: one is held, or the block starts to offer one.  In a cycle
with `rst = 1` a held one is still on offer until the edge (DESIGN CHOICE, log entry 15). -/
def State.offersIn (s : State) (c : Cycle) : Bool := s.rsp.isSome || (!c.rst && c.offer && !s.q.isEmpty)

/-- The request that the edge ending cycle `c` accepts, if it accepts one (spec/20_memory.md R47). -/
def State.acceptsIn (s : State) (c : Cycle) : List Request :=
  if !c.rst && c.reqValid && s.drivesReady c then [(s.beginCycle c).accepts c.req] else []

/-- Whether a response is on offer in the cycle that comes next. -/
abbrev State.offersNext (s : State) : Bool := s.offersIn s.nextCycle

/-- The request that the edge ending the next cycle accepts, if it accepts one. -/
abbrev State.acceptsNext (s : State) : List Request := s.acceptsIn s.nextCycle

/-- The requests accepted in the next `n` cycles, in acceptance order. -/
def acceptedIn (n : Nat) (s : State) : List Request :=
  match n with
  | 0 => []
  | n + 1 =>
    match step s with
    | .next t => s.acceptsNext ++ acceptedIn n t
    | .fault _ => []
    | .refused _ => []

/-- No cycle of the schedule resets the block. -/
abbrev State.NoReset (s : State) : Prop := ∀ c ∈ s.schedule, c.rst = false

/-- The steps of the transaction-level machine (spec/10_state.md R32). -/
inductive Action where
  | accept (r : Request)
  | respond
  | reset
deriving DecidableEq, Repr

/-- One step of the transaction-level machine of spec/10_state.md R32, by its name: its state is `Q` beside the responses
emitted so far. -/
inductive Transaction (p : Params) : Action → List Request × List Response → List Request × List Response → Prop where
  /-- `accept(r)` is enabled when `length Q < DEPTH` and sets `Q <- Q ++ [r]` (spec/20_memory.md R47). -/
  | accept (q : List Request) (out : List Response) (r : Request) :
      q.length < p.depth → r.fits p = true → Transaction p (.accept r) (q, out) (q ++ [r], out)
  /-- `respond` is enabled when `Q = r :: rest`, emits `eval(r)` and sets `Q <- rest` (spec/20_memory.md R48). -/
  | respond (r : Request) (rest : List Request) (out : List Response) (y : Response) :
      eval p r = some y → Transaction p .respond (r :: rest, out) (rest, out ++ [y])
  /-- `reset` sets `Q <- []` (spec/70_reset_and_hazards.md R160). -/
  | reset (q : List Request) (out : List Response) : Transaction p .reset (q, out) ([], out)

/-- The steps of the list, one after the other. -/
inductive Transactions (p : Params) : List Action → List Request × List Response → List Request × List Response → Prop where
  | done (x : List Request × List Response) : Transactions p [] x x
  | more (a : Action) (rest : List Action) (x y z : List Request × List Response) :
      Transaction p a x y → Transactions p rest y z → Transactions p (a :: rest) x z

/-- The transactions that the ports show at the edge that ends the next cycle: `reset` alone when `rst` is 1
(spec/70_reset_and_hazards.md R160); otherwise `respond` when the response on offer is taken, and then `accept(r)` when a
request is (spec/20_memory.md R47, R48). -/
def State.actionsNext (s : State) : List Action :=
  if s.nextCycle.rst then [.reset]
  else (if s.offersNext && s.nextCycle.rspReady then [.respond] else []) ++ s.acceptsNext.map .accept

/-- An infinite run: `σ n` is the state at the start of cycle `n`, and `c n` is that cycle.  No schedule bounds it. -/
def Runs (c : Nat → Cycle) (σ : Nat → State) : Prop := ∀ n, (σ n).inCycle (c n) = .next (σ (n + 1))

/-- The weak fairness of `respond` and `accept` while the host holds `rsp_ready` (spec/70_reset_and_hazards.md R169;
spec/92_eei_decisions.md D11): a step that stays enabled from some cycle on is offered in some later one. -/
structure WeaklyFair (c : Nat → Cycle) (σ : Nat → State) : Prop where
  /-- `respond` is enabled while `Q` is not empty; the block then offers the response. -/
  respond : ∀ n, (∀ k ≥ n, (c k).rst = false ∧ (c k).rspReady = true ∧ (σ k).q ≠ []) →
    ∃ k ≥ n, (σ k).offersIn (c k) = true
  /-- `accept` is enabled while `Q` holds fewer than DEPTH requests; the block then drives `req_ready`. -/
  accept : ∀ n, (∀ k ≥ n, (c k).rst = false ∧ (c k).rspReady = true ∧ (σ k).q.length < (σ k).params.depth) →
    ∃ k ≥ n, (σ k).drivesReady (c k) = true

end Sys2Proof.Machine
end

