-- ==== Sys2Proof/Certificates/Slice0/Obligations.lean ====
section
/-! DEFINITION. The statements for the provers.  Each docstring names the rule of spec/ it formalises; a statement about
a state is about every state that meets its hypotheses, so about every legal M, PRIM_POLY and DEPTH. -/

open Sys2Proof Sys2Proof.Machine

namespace Sys2Proof

/-- The polynomial over GF(2) whose coefficients are the bits of `n` (spec/00_scope.md R2). -/
noncomputable def polyOf (n : Nat) : Polynomial (ZMod 2) :=
  ∑ i ∈ Finset.range (n + 1), if n.testBit i then Polynomial.X ^ i else 0

end Sys2Proof

/-! ### Words and decoding -/

/-- spec/30_encoding.md R63: the three fields of a request word, at the same bits for every M, and nothing else. -/
def Obligations.RequestWordFieldsAreOpThenAThenB : Prop :=
  ∀ (p : Params) (r : Request), p.Legal → r.fits p = true →
    r.toWord p.m < 2 ^ (2 * p.m + 4) ∧
    r.toWord p.m = r.op.toNat + 2 ^ 4 * r.a + 2 ^ (p.m + 4) * r.b ∧
    r.toWord p.m % 2 ^ 4 = r.op.toNat ∧
    r.toWord p.m / 2 ^ 4 % 2 ^ p.m = r.a ∧
    r.toWord p.m / 2 ^ (p.m + 4) % 2 ^ p.m = r.b ∧
    Request.ofWord p.m (r.toWord p.m) = r ∧
    ∀ w < 2 ^ (2 * p.m + 4), (Request.ofWord p.m w).fits p = true ∧ (Request.ofWord p.m w).toWord p.m = w

/-- spec/30_encoding.md R63, R65, R69: no bit of an operand is dropped. -/
def Obligations.DecodingAnEncodedInstructionGivesItBack : Prop :=
  ∀ (p : Params) (i : Instr), p.Legal → i.wf p = true → decode p.m (encode p.m i) = .ok i

/-- spec/30_encoding.md R66, R68, R71: every number below `2^(2M+4)` is a request word with a well-formed instruction,
and every other number is refused. -/
def Obligations.EveryRequestWordIsAnInstruction : Prop :=
  ∀ (p : Params) (w : Nat), p.Legal →
    (w < 2 ^ (2 * p.m + 4) → ∃ i, decode p.m w = .ok i ∧ i.wf p = true ∧
      (8 ≤ w % 2 ^ 4 → i = .reserved (BitVec.ofNat 4 (w % 2 ^ 4)))) ∧
    (2 ^ (2 * p.m + 4) ≤ w → decode p.m w = .error .wordTooWide)

/-- spec/30_encoding.md R67: an ignored field does not affect the response, the encoder writes 0 into it, and the decoder
refuses no word for it. -/
def Obligations.IgnoredFieldsDoNotAffectTheResponse : Prop :=
  ∀ (p : Params) (op : BitVec 4) (a b : Nat), p.Legal → a < p.fs → b < p.fs →
    eval p ⟨0x4, a, b⟩ = eval p ⟨0x4, a, 0⟩ ∧
    eval p ⟨0x7, a, b⟩ = eval p ⟨0x7, a, 0⟩ ∧
    eval p ⟨0x6, a, b⟩ = eval p ⟨0x6, a, b % 2⟩ ∧
    (8 ≤ op.toNat → eval p ⟨op, a, b⟩ = eval p ⟨op, 0, 0⟩) ∧
    ((Instr.inv a).request p.m = ⟨0x4, a, 0⟩ ∧ (Instr.logrd a).request p.m = ⟨0x7, a, 0⟩ ∧
      (Instr.exprd (a + p.fs * (b % 2))).request p.m = ⟨0x6, a, b % 2⟩ ∧
      (Instr.reserved op).request p.m = ⟨op, 0, 0⟩) ∧
    ∃ i, decode p.m (Request.toWord p.m ⟨op, a, b⟩) = .ok i

/-- Words written out from spec/30_encoding.md R63 and R65 and spec/95_test_vectors.md section 4.1, one of each family. -/
def Obligations.WordsOfTheSpecDecodeToTheirInstructions : Prop :=
  decode 4 0xDB0 = .ok (.add 11 13) ∧ decode 4 0xDB1 = .ok (.sub 11 13) ∧ decode 4 0xDB2 = .ok (.mul 11 13) ∧
    decode 4 0x923 = .ok (.div 2 9) ∧ decode 4 0xFB4 = .ok (.inv 11) ∧ decode 4 0x285 = .ok (.mulraw 8 2) ∧
    decode 4 0x376 = .ok (.exprd 23) ∧ decode 4 0xFB7 = .ok (.logrd 11) ∧ decode 4 0x53F = .ok (.reserved 0xF) ∧
    decode 8 0xCDAB3 = .ok (.div 0xAB 0xCD) ∧ decode 1 0x26 = .ok (.exprd 2)

/-- spec/30_encoding.md R64: the two fields of a response word; and the four numbers of spec/60_exceptions.md R140. -/
def Obligations.ResponseWordFieldsAreResultThenErr : Prop :=
  (∀ (p : Params) (r : Response), p.Legal → r.result < p.fs →
    responseWord p.m r = r.result + 2 ^ p.m * (errCode r.err).toNat ∧
    responseWord p.m r % 2 ^ p.m = r.result ∧ responseWord p.m r / 2 ^ p.m = (errCode r.err).toNat ∧
    responseWord p.m r < 2 ^ (p.m + 2)) ∧
  errCode .ok = 0 ∧ errCode .edivz = 1 ∧ errCode .einvz = 2 ∧ errCode .eillop = 3

/-- spec/30_encoding.md R72: each pseudo-instruction is one request of the instruction set. -/
def Obligations.PseudoInstructionsExpandToOneRequest : Prop :=
  ∀ (m a b : Nat) (s : State),
    assemble m (.xor a b) = assemble m (.add a b) ∧ assemble m (.mov a) = assemble m (.add a 0) ∧
    assemble m (.neg a) = assemble m (.add a 0) ∧ assemble m (.sqr a) = assemble m (.mul a a) ∧
    assemble m (.clmul a b) = assemble m (.mulraw a b) ∧ answer (.add a 0) s = some ⟨a, .ok⟩

/-- spec/30_encoding.md R71: a form whose operands fit assembles to a word of its instruction, and the assembler refuses
an element operand that is not below FS, an EXPRD index that is not below 2·FS and a `.req` word that is not below
`2^(2M+4)`. -/
def Obligations.AssembledFormsDecodeToTheirInstructions : Prop :=
  ∀ (p : Params) (a b idx w : Nat), p.Legal →
    (a < p.fs → b < p.fs →
      (∃ w, assemble p.m (.add a b) = .ok w ∧ decode p.m w = .ok (.add a b)) ∧
      (∃ w, assemble p.m (.sub a b) = .ok w ∧ decode p.m w = .ok (.sub a b)) ∧
      (∃ w, assemble p.m (.mul a b) = .ok w ∧ decode p.m w = .ok (.mul a b)) ∧
      (∃ w, assemble p.m (.div a b) = .ok w ∧ decode p.m w = .ok (.div a b)) ∧
      (∃ w, assemble p.m (.mulraw a b) = .ok w ∧ decode p.m w = .ok (.mulraw a b))) ∧
    (a < p.fs →
      (∃ w, assemble p.m (.inv a) = .ok w ∧ decode p.m w = .ok (.inv a)) ∧
      (∃ w, assemble p.m (.logrd a) = .ok w ∧ decode p.m w = .ok (.logrd a))) ∧
    (idx < 2 * p.fs → ∃ w, assemble p.m (.exprd idx) = .ok w ∧ decode p.m w = .ok (.exprd idx)) ∧
    (w < 2 ^ (2 * p.m + 4) → assemble p.m (.req w) = .ok w) ∧
    (p.fs ≤ a ∨ p.fs ≤ b →
      assemble p.m (.add a b) = .error .elementTooLarge ∧ assemble p.m (.sub a b) = .error .elementTooLarge ∧
      assemble p.m (.mul a b) = .error .elementTooLarge ∧ assemble p.m (.div a b) = .error .elementTooLarge ∧
      assemble p.m (.mulraw a b) = .error .elementTooLarge) ∧
    (p.fs ≤ a → assemble p.m (.inv a) = .error .elementTooLarge ∧ assemble p.m (.logrd a) = .error .elementTooLarge) ∧
    (2 * p.fs ≤ idx → assemble p.m (.exprd idx) = .error .indexTooLarge) ∧
    (2 ^ (2 * p.m + 4) ≤ w → assemble p.m (.req w) = .error .wordTooLarge)

/-! ### The step -/

/-- spec/20_memory.md R48, spec/30_encoding.md R66: in a cycle in which the block starts to offer the oldest request's
response, the step is `exec` of the instruction that request's word decodes to, run in the state with the cycle begun,
and then the rising edge; in any other cycle it is the rising edge alone.  That the instruction runs when its offer
starts is the model's reading (DEDUCED, notes/assumptions/8.md), and where withFetchWord places a word is the model's
choice (notes/assumptions/9.md). -/
def Obligations.StepExecutesTheInstructionTheOldestRequestDecodesTo : Prop :=
  (∀ (s : State) (r : Request) (i : Instr), s.issues s.nextCycle = some r → r.fits s.params = true →
    decode s.params.m (r.toWord s.params.m) = .ok i →
      step s = andThen (exec i (s.beginCycle s.nextCycle)) fun t => .next (t.edge s.nextCycle)) ∧
  (∀ s : State, s.issues s.nextCycle = none → step s = .next ((s.beginCycle s.nextCycle).edge s.nextCycle)) ∧
  ∀ (s : State) (nbits w : Nat) (i : Instr), decode s.params.m (w % 2 ^ nbits) = .ok i →
    step (s.withFetchWord nbits w) = exec i ((s.withFetchWord nbits w).beginCycle Cycle.offersOnly)

/-! ### What each instruction answers.  The next state differs from the state in the response alone. -/

/-- spec/41_field_arithmetic.md R100. -/
def Obligations.AddAnswersTheExclusiveOr : Prop :=
  ∀ (s : State) (a b c : Nat),
    exec (.add a b) s = .next { s with rsp := some ⟨a ^^^ b, .ok⟩ } ∧
    exec (.add a 0) s = .next { s with rsp := some ⟨a, .ok⟩ } ∧
    exec (.add a a) s = .next { s with rsp := some ⟨0, .ok⟩ } ∧
    exec (.add a b) s = exec (.add b a) s ∧
    exec (.add (a ^^^ b) c) s = exec (.add a (b ^^^ c)) s ∧
    (a < s.params.fs → b < s.params.fs → a ^^^ b < s.params.fs) ∧
    Request.decode s.params.m ⟨0x0, a, b⟩ = .add a b ∧
    encode s.params.m (.add a b) = 0x0 ||| (a <<< 4) ||| (b <<< (s.params.m + 4))

/-- spec/41_field_arithmetic.md R101. -/
def Obligations.SubAnswersWhatAddAnswers : Prop :=
  ∀ (s : State) (a b : Nat),
    exec (.sub a b) s = .next { s with rsp := some ⟨a ^^^ b, .ok⟩ } ∧
    exec (.sub a b) s = exec (.add a b) s ∧
    exec (.sub a b) s = exec (.sub b a) s ∧
    exec (.sub a a) s = .next { s with rsp := some ⟨0, .ok⟩ } ∧
    Request.decode s.params.m ⟨0x1, a, b⟩ = .sub a b ∧
    encode s.params.m (.sub a b) = 0x1 ||| (a <<< 4) ||| (b <<< (s.params.m + 4))

/-- spec/41_field_arithmetic.md R102. -/
def Obligations.MulAnswersTheTableProduct : Prop :=
  ∀ (s : State) (a b : Nat), s.Built → a < s.params.fs → b < s.params.fs →
    (a = 0 ∨ b = 0 → exec (.mul a b) s = .next { s with rsp := some ⟨0, .ok⟩ }) ∧
    (a ≠ 0 → b ≠ 0 → exec (.mul a b) s = .next
      { s with rsp := some ⟨s.exp.read ((s.log.read a + s.log.read b) % s.params.ord), .ok⟩ }) ∧
    exec (.mul a b) s = exec (.mul b a) s ∧
    (s.params.m = 1 → exec (.mul 1 1) s = .next { s with rsp := some ⟨1, .ok⟩ }) ∧
    Request.decode s.params.m ⟨0x2, a, b⟩ = .mul a b ∧
    encode s.params.m (.mul a b) = 0x2 ||| (a <<< 4) ||| (b <<< (s.params.m + 4))

/-- spec/41_field_arithmetic.md R105. -/
def Obligations.DivAnswersTheTableQuotientOrDivisionByZero : Prop :=
  ∀ (s : State) (a b : Nat), s.Built → a < s.params.fs → b < s.params.fs →
    (b = 0 → exec (.div a b) s = .next { s with rsp := some ⟨0, .edivz⟩ }) ∧
    (b ≠ 0 → a = 0 → exec (.div a b) s = .next { s with rsp := some ⟨0, .ok⟩ }) ∧
    (b ≠ 0 → a ≠ 0 → exec (.div a b) s = .next
      { s with rsp := some ⟨s.exp.read (((s.log.read a : Int) - s.log.read b) % (s.params.ord : Int)).toNat, .ok⟩ }) ∧
    (Primitive s.params →
      (a ≠ 0 → exec (.div a a) s = .next { s with rsp := some ⟨1, .ok⟩ }) ∧
      exec (.div a 1) s = .next { s with rsp := some ⟨a, .ok⟩ }) ∧
    Request.decode s.params.m ⟨0x3, a, b⟩ = .div a b ∧
    encode s.params.m (.div a b) = 0x3 ||| (a <<< 4) ||| (b <<< (s.params.m + 4))

/-- spec/41_field_arithmetic.md R108. -/
def Obligations.InvAnswersTheTableInverseOrInverseOfZero : Prop :=
  ∀ (s : State) (a b : Nat), s.Built → a < s.params.fs →
    (a ≠ 0 → exec (.inv a) s = .next
      { s with rsp := some ⟨s.exp.read (if s.log.read a = 0 then 0 else s.params.ord - s.log.read a), .ok⟩ }) ∧
    (a = 0 → exec (.inv a) s = .next { s with rsp := some ⟨0, .einvz⟩ }) ∧
    (a ≠ 0 → exec (.inv a) s = .next { s with rsp := some ⟨s.exp.read (s.params.ord - s.log.read a), .ok⟩ } ∧
      1 ≤ s.params.ord - s.log.read a ∧ s.params.ord - s.log.read a ≤ s.params.ord) ∧
    (Primitive s.params → exec (.inv 1) s = .next { s with rsp := some ⟨1, .ok⟩ }) ∧
    Request.decode s.params.m ⟨0x4, a, b⟩ = .inv a ∧
    encode s.params.m (.inv a) = 0x4 ||| (a <<< 4)

/-- spec/42_reference_and_readout.md R120: the result is `multiply_raw`'s, below FS, and no ROM is read for it. -/
def Obligations.MulrawAnswersMultiplyRaw : Prop :=
  ∀ (s : State) (a b : Nat) (exp log : Memory), s.params.Legal → a < s.params.fs → b < s.params.fs →
    exec (.mulraw a b) s = .next { s with rsp := some ⟨mulRaw s.params a b, .ok⟩ } ∧
    mulRaw s.params a b < s.params.fs ∧
    answer (.mulraw a b) { s with exp := exp, log := log } = answer (.mulraw a b) s ∧
    exec (.mulraw 0 b) s = .next { s with rsp := some ⟨0, .ok⟩ } ∧
    exec (.mulraw a 0) s = .next { s with rsp := some ⟨0, .ok⟩ } ∧
    exec (.mulraw a 1) s = .next { s with rsp := some ⟨a, .ok⟩ } ∧
    Request.decode s.params.m ⟨0x5, a, b⟩ = .mulraw a b ∧
    encode s.params.m (.mulraw a b) = 0x5 ||| (a <<< 4) ||| (b <<< (s.params.m + 4))

/-- spec/42_reference_and_readout.md R121, with the operand form of spec/30_encoding.md R69. -/
def Obligations.ExprdAnswersTheExponentEntry : Prop :=
  ∀ (s : State) (idx a b : Nat), s.Built → idx < 2 * s.params.fs →
    exec (.exprd idx) s = .next { s with rsp := some ⟨s.exp.read idx, .ok⟩ } ∧
    Request.decode s.params.m ⟨0x6, a, b⟩ = .exprd (a + s.params.fs * (b % 2)) ∧
    encode s.params.m (.exprd idx) = 0x6 ||| ((idx &&& s.params.mask) <<< 4) ||| ((idx >>> s.params.m) <<< (s.params.m + 4)) ∧
    exec (.exprd 0) s = .next { s with rsp := some ⟨1, .ok⟩ } ∧
    (idx < s.params.ord → answer (.exprd (idx + s.params.ord)) s = answer (.exprd idx) s) ∧
    exec (.exprd (2 * s.params.fs - 2)) s = .next { s with rsp := some ⟨0, .ok⟩ } ∧
    exec (.exprd (2 * s.params.fs - 1)) s = .next { s with rsp := some ⟨0, .ok⟩ }

/-- spec/42_reference_and_readout.md R122; index 0 is no error. -/
def Obligations.LogrdAnswersTheLogarithmEntry : Prop :=
  ∀ (s : State) (a b : Nat), s.Built → a < s.params.fs →
    Request.decode s.params.m ⟨0x7, a, b⟩ = .logrd a ∧
    encode s.params.m (.logrd a) = 0x7 ||| (a <<< 4) ∧
    exec (.logrd a) s = .next { s with rsp := some ⟨s.log.read a, .ok⟩ } ∧
    (Primitive s.params →
      exec (.logrd 0) s = .next { s with rsp := some ⟨0, .ok⟩ } ∧ exec (.logrd 1) s = .next { s with rsp := some ⟨0, .ok⟩ })

/-- spec/60_exceptions.md R144: the instruction's own effect is the EILLOP response, whatever its fields hold. -/
def Obligations.ReservedOpcodesAnswerIllegalOpcode : Prop :=
  ∀ (s : State) (r : Request), 8 ≤ r.op.toNat →
    r.decode s.params.m = .reserved r.op ∧
    exec (.reserved r.op) s = .next { s with rsp := some ⟨0, .eillop⟩ }

/-- spec/10_state.md R20, spec/20_memory.md R43 and R44: an instruction changes nothing but the response on offer; every
ROM entry, `Q`, the configuration, the handshake and the schedule stay. -/
def Obligations.InstructionsChangeOnlyTheResponse : Prop :=
  ∀ (i : Instr) (s t : State), exec i s = .next t →
    t.rsp.isSome = true ∧ t.params = s.params ∧ t.q = s.q ∧ t.reqReady = s.reqReady ∧ t.presented = s.presented ∧
    t.schedule = s.schedule ∧ t.taken = s.taken ∧ t.tick = s.tick ∧
    ∀ k, t.exp.read k = s.exp.read k ∧ t.log.read k = s.log.read k

/-- spec/10_state.md R25 and R26 give the sizes of the ROMs: a table read outside them, which no port can present
(spec/20_memory.md R46), faults by name.  The fault is the model's choice (notes/assumptions/13.md). -/
def Obligations.IndicesOutsideTheRomsFault : Prop :=
  ∀ (s : State) (k a : Nat), s.params.Legal →
    (2 * s.params.fs ≤ k → exec (.exprd k) s = .fault (.expIndexOutOfRange k)) ∧
    (s.params.fs ≤ k → exec (.logrd k) s = .fault (.logIndexOutOfRange k)) ∧
    (s.params.fs ≤ k → exec (.inv k) s = .fault (.logIndexOutOfRange k)) ∧
    (s.params.fs ≤ k → a ≠ 0 → exec (.mul k a) s = .fault (.logIndexOutOfRange k)) ∧
    (s.params.fs ≤ k → a ≠ 0 → exec (.div k a) s = .fault (.logIndexOutOfRange k))

/-- spec/60_exceptions.md R140, R142, R143: which instruction raises which error, under which number, and what an error
response holds.  Every
well-formed instruction answers. -/
def Obligations.ErrorsAreRaisedExactlyWhereNamed : Prop :=
  ∀ (i : Instr) (s : State), s.Built → i.wf s.params = true →
    ∃ r : Response, exec i s = .next { s with rsp := some r } ∧ r.result < s.params.fs ∧
      (r.err = .edivz ↔ ∃ a, i = .div a 0) ∧
      (r.err = .einvz ↔ i = .inv 0) ∧
      (r.err = .eillop ↔ ∃ op, i = .reserved op) ∧
      (r.err ≠ .ok → r.result = 0) ∧
      (errCode r.err = 1 ↔ ∃ a, i = .div a 0) ∧
      (errCode r.err = 2 ↔ i = .inv 0) ∧
      (errCode r.err = 3 ↔ ∃ op, i = .reserved op)

/-- spec/20_memory.md R49: the answer to an instruction depends on it and on the parameters alone. -/
def Obligations.AnswersDependOnParametersAlone : Prop :=
  ∀ (i : Instr) (s t : State), s.Built → t.Built → s.params.m = t.params.m → s.params.poly = t.params.poly →
    answer i s = answer i t

/-- spec/30_encoding.md R70: which source calls fail, and with what. -/
def Obligations.SourceCallsFailExactlyOnTheirDomainErrors : Prop :=
  ∀ (s : State) (a b : Nat), s.Built → a < s.params.fs → b < s.params.fs →
    (∃ r, answer (SourceCall.add a b).instr s = some r ∧ sourceValue r = some (.ok r.result)) ∧
    (∃ r, answer (SourceCall.subtract a b).instr s = some r ∧ sourceValue r = some (.ok r.result)) ∧
    (∃ r, answer (SourceCall.multiply a b).instr s = some r ∧ sourceValue r = some (.ok r.result)) ∧
    (∃ r, answer (SourceCall.divide a b).instr s = some r ∧
      sourceValue r = some (if b = 0 then .error .divisionByZero else .ok r.result)) ∧
    (∃ r, answer (SourceCall.inverse a).instr s = some r ∧
      sourceValue r = some (if a = 0 then .error .inverseOfZero else .ok r.result))

/-! ### The raw multiplier and the ROMs -/

/-- spec/40_construction.md R84: one iteration of the loop; `a` is XORed into the result before it is shifted, and only bit
M of the shifted `a` decides the reduction. -/
def Obligations.MultiplyRawShiftsReducesAndAccumulates : Prop :=
  ∀ (p : Params) (a b : Nat),
    mulRaw p a 0 = 0 ∧
    (b ≠ 0 → mulRaw p a b =
      (if b % 2 = 1 then a else 0) ^^^
        mulRaw p (if (2 * a).testBit p.m then (2 * a) ^^^ p.poly else 2 * a) (b / 2))

/-- spec/40_construction.md R85: the variable `a` and the result stay below FS, `log2 b + 1` iterations finish the loop (M
for an element, 2 for the generator), and the special operands. -/
def Obligations.MultiplyRawStaysBelowFieldSize : Prop :=
  ∀ (p : Params) (a b fuel : Nat), p.Legal → a < p.fs →
    mulAdvance p a < p.fs ∧ mulRaw p a b < p.fs ∧
    (Nat.log2 b + 1 ≤ fuel → mulLoop p fuel a b 0 = mulRaw p a b) ∧
    (b < p.fs → mulLoop p p.m a b 0 = mulRaw p a b) ∧ mulLoop p 2 a 2 0 = mulRaw p a 2 ∧
    mulRaw p a 0 = 0 ∧ mulRaw p 0 b = 0 ∧ mulRaw p a 1 = a

/-- spec/00_scope.md R2: bit `i` of an element is the coefficient of `x^i`; ADD and SUB answer the sum of the
polynomials, which in characteristic 2 is also their difference (spec/41_field_arithmetic.md R100, R101). -/
def Obligations.ExclusiveOrAddsPolynomials : Prop :=
  ∀ (s : State) (a b : Nat),
    (∀ i, (polyOf a).coeff i = (if a.testBit i then 1 else 0)) ∧
    polyOf (resultOf (.add a b) s) = polyOf a + polyOf b ∧
    polyOf (resultOf (.sub a b) s) = polyOf a - polyOf b

/-- spec/40_construction.md R86: the remainder of the polynomial product modulo PRIM_POLY, for every legal PRIM_POLY. -/
def Obligations.MultiplyRawIsTheRemainderOfTheProduct : Prop :=
  ∀ (p : Params) (a b : Nat), p.Legal → a < p.fs → b < p.fs →
    polyOf (mulRaw p a b) = (polyOf a * polyOf b) %ₘ polyOf p.poly ∧ mulRaw p a b = mulRaw p b a

/-- spec/40_construction.md R83: multiplying by the generator is one shift and one conditional reduction, and the M = 1
tables are the same for both legal polynomials. -/
def Obligations.GeneratorStepIsOneShiftAndReduction : Prop :=
  ∀ (p : Params) (x : Nat), p.Legal →
    (2 ≤ p.m → x < p.fs → mulRaw p x 2 = (x <<< 1) ^^^ (if x.testBit (p.m - 1) then p.poly else 0)) ∧
    (p.m = 1 →
      ((expRom p).read 0 = 1 ∧ (expRom p).read 1 = 1 ∧ (expRom p).read 2 = 0 ∧ (expRom p).read 3 = 0 ∧
        (logRom p).read 0 = 0 ∧ (logRom p).read 1 = 0) ∧ Primitive p)

/-- spec/40_construction.md R87, all six items, primitive or not. -/
def Obligations.RomContentsForEveryLegalPolynomial : Prop :=
  ∀ p : Params, p.Legal →
    (expRom p).read 0 = 1 ∧
    (∀ i, (expRom p).read i < p.fs) ∧
    (∀ i < p.ord, (expRom p).read (i + p.ord) = (expRom p).read i) ∧
    2 * p.ord - 1 = 2 * p.fs - 3 ∧
    ((expRom p).read (2 * p.fs - 2) = 0 ∧ (expRom p).read (2 * p.fs - 1) = 0) ∧
    ∀ y, (logRom p).read y < p.ord

/-- spec/40_construction.md R89, all five items, under PRIMITIVE. -/
def Obligations.RomsHoldDiscreteLogarithmsUnderPrimitive : Prop :=
  ∀ p : Params, p.Legal → Primitive p →
    ((∀ y, 0 < y → y < p.fs → ∃! i, i < p.ord ∧ (expRom p).read i = y) ∧
      ∀ i < p.ord, 0 < (expRom p).read i ∧ (expRom p).read i < p.fs) ∧
    ((∀ i < p.ord, (logRom p).read ((expRom p).read i) = i) ∧
      ∀ y, 0 < y → y < p.fs → (expRom p).read ((logRom p).read y) = y) ∧
    (logRom p).read 0 = 0 ∧
    ((logRom p).read 1 = 0 ∧ (2 ≤ p.m → (logRom p).read 2 = 1)) ∧
    ((∀ i < p.ord, ∃! y, 0 < y ∧ y < p.fs ∧ (logRom p).read y = i) ∧
      ∀ y, 0 < y → y < p.fs → (logRom p).read y < p.ord)

/-- spec/40_construction.md R90: whatever the polynomial, `EXP[i]` is `x^i mod P(x)`, `LOG[y]` is the last iteration at
which `x` was `y`, and 0 if it never was. -/
def Obligations.RomsHoldPowersAndLastIterations : Prop :=
  ∀ p : Params, p.Legal →
    (∀ i < p.ord, polyOf ((expRom p).read i) = Polynomial.X ^ i %ₘ polyOf p.poly) ∧
    (∀ i < p.ord, (∀ j < p.ord, i < j → (expRom p).read j ≠ (expRom p).read i) →
      (logRom p).read ((expRom p).read i) = i) ∧
    ∀ y, (∀ i < p.ord, (expRom p).read i ≠ y) → (logRom p).read y = 0

/-- spec/41_field_arithmetic.md R103, R106: the reduced indices as one conditional step, and the same entries of the
doubled table without it (with R108's for INV), for every pair of values `LOG` can hold. -/
def Obligations.DoubledTableGivesTheSameEntries : Prop :=
  ∀ (p : Params) (la lb : Nat), p.Legal → la < p.ord → lb < p.ord →
    (la + lb ≤ 2 * p.ord - 2 ∧ mulIndex p la lb = (if p.ord ≤ la + lb then la + lb - p.ord else la + lb) ∧
      (expRom p).read (mulIndexDoubled la lb) = (expRom p).read (mulIndex p la lb)) ∧
    (divIndex p la lb < p.ord ∧ divIndex p la lb = (if la < lb then la + p.ord - lb else la - lb) ∧
      1 ≤ divIndexDoubled p la lb ∧ divIndexDoubled p la lb ≤ 2 * p.ord - 1 ∧
      divIndex p la lb =
        (if p.ord ≤ divIndexDoubled p la lb then divIndexDoubled p la lb - p.ord else divIndexDoubled p la lb) ∧
      (expRom p).read (divIndexDoubled p la lb) = (expRom p).read (divIndex p la lb)) ∧
    (1 ≤ invIndexDoubled p la ∧ invIndexDoubled p la ≤ p.ord ∧
      (expRom p).read (invIndexDoubled p la) = (expRom p).read (invIndex p la))

/-! ### The field -/

/-- spec/41_field_arithmetic.md R104, all eight laws, under PRIMITIVE. -/
def Obligations.MultiplicationLawsUnderPrimitive : Prop :=
  ∀ s : State, s.Built → Primitive s.params →
    let mul := fun x y => resultOf (.mul x y) s
    let add := fun x y => resultOf (.add x y) s
    ∀ a b c i j : Nat, a < s.params.fs → b < s.params.fs → c < s.params.fs → i < s.params.ord → j < s.params.ord →
      (answer (.mul a b) s = some ⟨mul a b, .ok⟩ ∧ mul a b < s.params.fs) ∧
      mul a 1 = a ∧
      mul 0 a = 0 ∧
      mul a b = mul b a ∧
      mul (mul a b) c = mul a (mul b c) ∧
      mul a (add b c) = add (mul a b) (mul a c) ∧
      (mul a b = 0 ↔ a = 0 ∨ b = 0) ∧
      mul (s.exp.read i) (s.exp.read j) = s.exp.read ((i + j) % s.params.ord)

/-- spec/41_field_arithmetic.md R107, under PRIMITIVE. -/
def Obligations.DivisionLawsUnderPrimitive : Prop :=
  ∀ s : State, s.Built → Primitive s.params →
    let mul := fun x y => resultOf (.mul x y) s
    let div := fun x y => resultOf (.div x y) s
    let inv := fun x => resultOf (.inv x) s
    ∀ a b : Nat, a < s.params.fs → b < s.params.fs → b ≠ 0 →
      answer (.div a b) s = some ⟨div a b, .ok⟩ ∧
      mul (div a b) b = a ∧
      div a b = mul a (inv b) ∧
      div 1 b = inv b ∧
      div 0 b = 0

/-- spec/41_field_arithmetic.md R109, under PRIMITIVE. -/
def Obligations.InverseLawsUnderPrimitive : Prop :=
  ∀ s : State, s.Built → Primitive s.params →
    let mul := fun x y => resultOf (.mul x y) s
    let inv := fun x => resultOf (.inv x) s
    ∀ a : Nat, a < s.params.fs → a ≠ 0 →
      answer (.inv a) s = some ⟨inv a, .ok⟩ ∧
      mul a (inv a) = 1 ∧
      inv (inv a) = a ∧
      inv a ≠ 0 ∧
      (2 ≤ s.params.m → inv a = (fun x => mul x a)^[s.params.fs - 3] a)

/-- spec/41_field_arithmetic.md R110: the table path and the reference multiplier agree under PRIMITIVE, and need not
otherwise. -/
def Obligations.TableProductIsTheRawProductUnderPrimitive : Prop :=
  (∀ (s : State) (a b : Nat), s.Built → Primitive s.params → a < s.params.fs → b < s.params.fs →
    exec (.mul a b) s = exec (.mulraw a b) s) ∧
  ∃ (s : State) (a b : Nat), s.Built ∧ ¬ Primitive s.params ∧ a < s.params.fs ∧ b < s.params.fs ∧
    exec (.mul a b) s ≠ exec (.mulraw a b) s

/-! ### Elaboration, configuration and reset -/

/-- spec/00_scope.md R6, R7: elaboration refuses every other M and every other shape of PRIM_POLY, and tests nothing
else: with any DEPTH of at least 1 it accepts all the others, primitive or not. -/
def Obligations.ElaborationAcceptsExactlyTheLegalParameters : Prop :=
  ∀ p : Params,
    (¬ (1 ≤ p.m ∧ p.m ≤ 16) → ∃ e, elaborate p = .error e) ∧
    (¬ (2 ^ p.m ≤ p.poly ∧ p.poly < 2 ^ (p.m + 1)) → ∃ e, elaborate p = .error e) ∧
    (1 ≤ p.m ∧ p.m ≤ 16 → 2 ^ p.m ≤ p.poly ∧ p.poly < 2 ^ (p.m + 1) → 1 ≤ p.depth →
      elaborate p = .ok (State.fresh p) ∧ (State.fresh p).Inv)

/-- spec/10_state.md R23: what the two configuration outputs carry. -/
def Obligations.ConfigurationPortsCarryTheParameters : Prop :=
  ∀ s t : State, s.params.Legal →
    s.cfgM.toNat = s.params.m ∧ s.cfgPoly.toNat = s.params.poly ∧ s.cfgPoly.getLsbD s.params.m = true ∧
    (step s = .next t → t.params = s.params)

/-- spec/10_state.md R27: the contents are a function of (M, PRIM_POLY) alone, and no step of any kind, a reset among
them, changes a ROM or a parameter. -/
def Obligations.RomsAndConfigurationAreConstant : Prop :=
  (∀ s t : State, s.Built → t.Built → s.params.m = t.params.m → s.params.poly = t.params.poly →
    s.exp = t.exp ∧ s.log = t.log) ∧
  ∀ s t : State, step s = .next t → t.params = s.params ∧ t.exp = s.exp ∧ t.log = s.log

/-- spec/10_state.md R31, of the block that `Config.resetParams` elaborates: that choice of parameters is the model's
(notes/assumptions/1.md). -/
def Obligations.InvariantHoldsAtReset : Prop :=
  State.reset.Inv ∧ State.reset.q = [] ∧ State.reset.rspValid = false ∧ State.reset.reqReady = false ∧
    State.reset.exp = expRom State.reset.params ∧ State.reset.log = logRom State.reset.params

/-- spec/70_reset_and_hazards.md R160, R161: whatever the state and the other inputs, an edge with `rst = 1` leaves `Q`
empty and both handshake outputs 0; no response is taken, and ROMs and configuration stay. -/
def Obligations.ResetEmptiesTheQueue : Prop :=
  ∀ (s : State) (c d : Cycle) (rest : List Cycle), c.rst = true → d.rst = true →
    ∃ t : State, step { s with schedule := c :: rest } = .next t ∧
      t.q = [] ∧ t.rspValid = false ∧ t.reqReady = false ∧ t.taken = s.taken ∧
      t.params = s.params ∧ t.exp = s.exp ∧ t.log = s.log ∧ t.schedule = rest ∧
      step { s with schedule := d :: rest } = .next t

/-- spec/70_reset_and_hazards.md R162, R163: from power-up, with any values in the handshake state, one edge with `rst = 1`
gives a block in use. -/
def Obligations.OneResetEdgeBootsFromAnyPowerUpState : Prop :=
  ∀ (s : State), s.Built → s.PortsFit → s.nextCycle.rst = true → ∃ t : State, step s = .next t ∧ t.Inv ∧ t.q = []

/-! ### Requests and responses -/

/-- The invariant is inductive: from every state that meets it, every step gives a state that meets it
(spec/10_state.md R27, R28, R29). -/
def Obligations.EveryStepKeepsTheInvariant : Prop :=
  ∀ s t : State, s.Inv → step s = .next t → t.Inv

/-- spec/20_memory.md R46, spec/60_exceptions.md R147: a block in use never stops; every cycle has a next state. -/
def Obligations.ABlockInUseNeverStops : Prop :=
  ∀ s : State, s.Inv → ∃ t : State, step s = .next t

/-- spec/20_memory.md R47, R48: what one cycle without reset does to the queue, the response on offer and `req_ready`, for a
host that keeps its request unchanged.  The old head leaves before the accepted request joins. -/
def Obligations.OneCycleTransfersAsTheHandshakeSays : Prop :=
  ∀ s : State, s.Inv → s.nextCycle.rst = false →
    (∀ x ∈ s.presented, x = s.nextCycle.req) → s.presented.length ≤ 1 →
    let ready := s.nextCycle.ready && decide (s.q.length < s.params.depth)
    let taken := s.offersNext && s.nextCycle.rspReady
    ∃ t : State, step s = .next t ∧
      t.reqReady = ready ∧
      t.q = (if taken then s.q.tail else s.q) ++ (if s.nextCycle.reqValid && ready then [s.nextCycle.req] else []) ∧
      t.taken.map some = s.taken.map some ++ (if taken then [s.q.head?.bind (eval s.params)] else []) ∧
      t.rsp = (if s.offersNext && !s.nextCycle.rspReady then s.q.head?.bind (eval s.params) else none)

/-- spec/20_memory.md R49: the responses are a function of the requests accepted: two runs of blocks with the same
parameters, whatever their schedules, timing and depth, that start with nothing in flight and accept the same requests,
have taken responses of which one list begins the other, and the same ones once nothing is in flight. -/
def Obligations.EveryInterleavingGivesTheSameResponses : Prop :=
  ∀ (n₁ n₂ : Nat) (s₁ s₂ t₁ t₂ : State), s₁.Inv → s₂.Inv →
    s₁.params.m = s₂.params.m → s₁.params.poly = s₂.params.poly →
    s₁.q = [] → s₂.q = [] → s₁.taken = [] → s₂.taken = [] → s₁.NoReset → s₂.NoReset →
    Sys2Proof.core.run n₁ s₁ = .next t₁ → Sys2Proof.core.run n₂ s₂ = .next t₂ → acceptedIn n₁ s₁ = acceptedIn n₂ s₂ →
      (t₁.taken <+: t₂.taken ∨ t₂.taken <+: t₁.taken) ∧ (t₁.q = [] → t₂.q = [] → t₁.taken = t₂.taken)

/-- spec/20_memory.md R48: over any run without reset, every request accepted before or in it is answered exactly once and in
acceptance order, by the responses taken and those still due. -/
def Obligations.ResponsesComeOncePerRequestInOrder : Prop :=
  ∀ (n : Nat) (s t : State), s.Inv → s.NoReset → Sys2Proof.core.run n s = .next t →
    t.taken.map some ++ t.q.map (eval s.params) =
      s.taken.map some ++ s.q.map (eval s.params) ++ (acceptedIn n s).map (eval s.params)

/-- spec/10_state.md R29: `rsp_valid` is 1 exactly when a response is on offer, and then the ports hold the response of the
oldest request.  Nothing is said of them otherwise. -/
def Obligations.ResponsePortsHoldTheOldestRequestsResponse : Prop :=
  ∀ s : State, s.Inv →
    (s.rspValid = true ↔ s.rsp.isSome = true) ∧
    (s.rspValid = true → ∃ r y, s.q.head? = some r ∧ eval s.params r = some y ∧
      s.rspResult.toNat = y.result ∧ s.rspErr = errCode y.err)

/-- spec/70_reset_and_hazards.md R165: an offered response is held until it is taken or `rst` is 1; none is offered while `Q`
is empty; `req_ready` does not depend on the request channel nor `rsp_valid` on `rsp_ready` within a cycle. -/
def Obligations.OfferedResponsesAreHeld : Prop :=
  (∀ (s : State) (r : Response), s.rsp = some r → s.nextCycle.rst = false → s.nextCycle.rspReady = false →
    ∃ t : State, step s = .next t ∧ t.rsp = some r) ∧
  (∀ (s t : State) (c : Cycle), s.q = [] → s.rsp = none → (s.beginCycle c).drive c = .next t → t.rspValid = false) ∧
  (∀ (s : State) (c d : Cycle), c.rst = d.rst → c.ready = d.ready → s.drivesReady c = s.drivesReady d) ∧
  (∀ (s : State) (c d : Cycle), c.rst = d.rst → c.offer = d.offer → s.drive c = s.drive d)

/-- spec/00_scope.md R9: a response on offer after a cycle is that of a request that was in flight when the cycle began,
so every LATENCY is at least 1. -/
def Obligations.LatencyIsAtLeastOneCycle : Prop :=
  ∀ s t : State, s.Inv → step s = .next t → t.rspValid = true → ∃ r, s.q.head? = some r ∧ t.q.head? = some r

/-- spec/70_reset_and_hazards.md R164: an acceptance accepts the request a host kept, and one of those it presented when
it changed it; the choice among them is free (notes/assumptions/4.md). -/
def Obligations.AcceptanceIsOfAPresentedRequest : Prop :=
  ∀ s t : State, s.nextCycle.rst = false → s.nextCycle.reqValid = true → s.drivesReady s.nextCycle = true →
    step s = .next t →
      ∃ r, t.q.getLast? = some r ∧ (r ∈ s.presented ∨ r = s.nextCycle.req) ∧ t.presented = [] ∧
        ((∀ x ∈ s.presented, x = s.nextCycle.req) → s.presented.length ≤ 1 → r = s.nextCycle.req)

/-- spec/70_reset_and_hazards.md R169: while `rst` stays 0 and the host keeps taking responses, every request in flight is
answered, first and in order, once the block has offered a response as often as there were requests. -/
def Obligations.EveryRequestInFlightIsAnswered : Prop :=
  ∀ (n : Nat) (s : State), s.Inv →
    (∀ c ∈ s.schedule.take n, c.rst = false ∧ c.rspReady = true) →
    s.q.length ≤ ((s.schedule.take n).filter (fun c => c.offer)).length →
    ∃ (t : State) (answers later : List Response), Sys2Proof.core.run n s = .next t ∧
      t.taken = s.taken ++ answers ++ later ∧ answers.map some = s.q.map (eval s.params)

/-- spec/70_reset_and_hazards.md R169: while `rst` stays 0 and the host keeps taking responses, `req_ready` is 1 in some
cycle, at the latest in one in which the block is willing to accept after one in which it was willing to answer. -/
def Obligations.RequestReadyIsRaisedOnceABlockAnswers : Prop :=
  ∀ (i j : Nat) (s : State) (c d : Cycle), s.Inv →
    (∀ e ∈ s.schedule.take (j + 1), e.rst = false ∧ e.rspReady = true) →
    i < j → s.schedule[i]? = some c → c.offer = true → s.schedule[j]? = some d → d.ready = true →
    ∃ (k : Nat) (t : State), 1 ≤ k ∧ k ≤ j + 1 ∧ Sys2Proof.core.run k s = .next t ∧ t.reqReady = true

/-- spec/10_state.md R32: every clock cycle of a block in use does to `Q` and to the responses emitted exactly the
transactions its ports show: a reset alone, or at most one respond and then at most one accept, of the request that the
handshake accepts. -/
def Obligations.EveryCycleIsASequenceOfTransactions : Prop :=
  ∀ s t : State, s.Inv → step s = .next t →
    Transactions s.params s.actionsNext (s.q, s.taken) (t.q, t.taken)

/-- spec/10_state.md R32, the other direction: each enabled transaction step, alone, is some cycle of a block in use that
has no response pending and no request waiting. -/
def Obligations.EveryTransactionIsSomeCycle : Prop :=
  ∀ (s : State) (a : Action) (x : List Request × List Response), s.Inv → s.rsp = none → s.presented = [] →
    Transaction s.params a (s.q, s.taken) x →
      ∃ (c : Cycle) (t : State), State.actionsNext { s with schedule := c :: s.schedule } = [a] ∧
        step { s with schedule := c :: s.schedule } = .next t ∧ (t.q, t.taken) = x

/-! ### Progress -/

/-- spec/70_reset_and_hazards.md R169: in every infinite run whose `respond` and `accept` steps are weakly fair, from a cycle
on in which `rst` stays 0 and the host holds `rsp_ready`, every request in `Q` is answered, in order, and `req_ready`
becomes 1. -/
def Obligations.WeaklyFairRunsAnswerEveryRequest : Prop :=
  ∀ (c : Nat → Cycle) (σ : Nat → State), (σ 0).Inv → (∀ n, (c n).req.fits (σ 0).params = true) →
    Runs c σ → WeaklyFair c σ →
    ∀ n, (∀ k ≥ n, (c k).rst = false ∧ (c k).rspReady = true) →
      (∃ k ≥ n, ∃ answers later : List Response, (σ k).taken = (σ n).taken ++ answers ++ later ∧
        answers.map some = (σ n).q.map (eval (σ n).params)) ∧
      ∃ k ≥ n, (σ (k + 1)).reqReady = true

/-- spec/70_reset_and_hazards.md R169: the machine is weakly fair by itself.  Every infinite run of `step`, from any state and
with any schedule, is a weakly fair run of its cycles.  The cycles past the end of the schedule are the model's choice
(notes/assumptions/5.md). -/
def Obligations.EveryRunOfTheMachineIsWeaklyFair : Prop :=
  ∀ σ : Nat → State, (∀ n, step (σ n) = .next (σ (n + 1))) →
    Runs (fun n => (σ n).nextCycle) σ ∧ WeaklyFair (fun n => (σ n).nextCycle) σ

/-- spec/70_reset_and_hazards.md R169, with a bound: whatever the schedule, if it has no reset, every request in flight is
answered, in order, once it is over and as many cycles as there were requests have passed; and `req_ready` is 1 two
cycles after its end.  The cycles past the end of the schedule are the model's choice (notes/assumptions/5.md). -/
def Obligations.EveryRequestIsAnsweredOnceTheScheduleEnds : Prop :=
  ∀ s : State, s.Inv →
    (s.NoReset → ∃ (t : State) (answers later : List Response),
      Sys2Proof.core.run (s.schedule.length + s.q.length) s = .next t ∧
        t.taken = s.taken ++ answers ++ later ∧ answers.map some = s.q.map (eval s.params)) ∧
    ∃ t : State, Sys2Proof.core.run (s.schedule.length + 2) s = .next t ∧ t.reqReady = true
end

