-- ==== Sys2Proof/Laws/Memory.lean ====
section
/-! SUPPORT. Reading after writing, and the canonical form of a table. -/

namespace Sys2Proof.Machine

theorem Memory.wfFrom_cons (lo k v : Nat) (rest : Memory) :
    Memory.wfFrom lo ((k, v) :: rest) = true ↔ lo ≤ k ∧ v ≠ Memory.unlisted ∧ Memory.wfFrom (k + 1) rest = true := by
  simp [Memory.wfFrom, and_assoc]

theorem Memory.wfFrom_mono {lo lo' : Nat} (h : lo ≤ lo') {mem : Memory} (w : Memory.wfFrom lo' mem = true) :
    Memory.wfFrom lo mem = true := by
  cases mem with
  | nil => rfl
  | cons cell rest =>
    obtain ⟨k, v⟩ := cell
    rw [Memory.wfFrom_cons] at w ⊢
    exact ⟨by omega, w.2⟩

/-- An entry below every listed one reads as unlisted. -/
theorem Memory.read_below {lo : Nat} {mem : Memory} (w : Memory.wfFrom lo mem = true) {i : Nat} (h : i < lo) :
    Memory.read mem i = Memory.unlisted := by
  induction mem generalizing lo with
  | nil => rfl
  | cons cell rest ih =>
    obtain ⟨k, v⟩ := cell
    rw [Memory.wfFrom_cons] at w
    rw [Memory.read, if_neg (by omega), ih w.2.2 (by omega)]

theorem Memory.wfFrom_write {lo : Nat} {mem : Memory} (w : Memory.wfFrom lo mem = true) {i : Nat} (x : Nat)
    (h : lo ≤ i) : Memory.wfFrom lo (mem.write i x) = true := by
  induction mem generalizing lo with
  | nil =>
    by_cases hx : x = Memory.unlisted <;> simp [Memory.write, Memory.wfFrom, hx, h]
  | cons cell rest ih =>
    obtain ⟨k, v⟩ := cell
    have w' := (Memory.wfFrom_cons lo k v rest).1 w
    rw [Memory.write]
    split
    · split
      · exact w
      · next hx => simp only [Memory.wfFrom_cons]; exact ⟨h, hx, by omega, w'.2⟩
    · split
      · next hik =>
        subst hik
        split
        · exact Memory.wfFrom_mono (by omega) w'.2.2
        · next hx => rw [Memory.wfFrom_cons]; exact ⟨h, hx, w'.2.2⟩
      · rw [Memory.wfFrom_cons]; exact ⟨w'.1, w'.2.1, ih w'.2.2 (by omega)⟩

/-- Every memory operation keeps the canonical form: writing is the only one. -/
theorem Memory.wf_write {mem : Memory} (w : mem.wf = true) (i : Nat) (x : Nat) : (mem.write i x).wf = true :=
  Memory.wfFrom_write w x (Nat.zero_le i)

theorem Memory.wf_nil : Memory.wf [] = true := rfl

theorem Memory.readFrom_write_same {lo : Nat} {mem : Memory} (w : Memory.wfFrom lo mem = true) (i : Nat) (x : Nat) :
    (mem.write i x).read i = x := by
  induction mem generalizing lo with
  | nil => by_cases hx : x = Memory.unlisted <;> simp [Memory.write, Memory.read, hx]
  | cons cell rest ih =>
    obtain ⟨k, v⟩ := cell
    have w' := (Memory.wfFrom_cons lo k v rest).1 w
    rw [Memory.write]
    split
    · split
      · next hx => rw [Memory.read, if_neg (by omega), hx]; exact Memory.read_below w'.2.2 (by omega)
      · simp [Memory.read]
    · split
      · split
        · next hx => rw [hx]; exact Memory.read_below w'.2.2 (by omega)
        · simp [Memory.read]
      · rw [Memory.read, if_neg (by omega)]; exact ih w'.2.2

/-- A read after a write to the same entry gives the value written. -/
theorem Memory.read_write_same {mem : Memory} (w : mem.wf = true) (i : Nat) (x : Nat) :
    (mem.write i x).read i = x := Memory.readFrom_write_same w i x

/-- A write leaves every other entry alone. -/
theorem Memory.read_write_other (mem : Memory) {i j : Nat} (x : Nat) (h : j ≠ i) :
    (mem.write i x).read j = mem.read j := by
  induction mem with
  | nil => by_cases hx : x = Memory.unlisted <;> simp [Memory.write, Memory.read, hx, h]
  | cons cell rest ih =>
    obtain ⟨k, v⟩ := cell
    rw [Memory.write]
    split
    · split
      · rfl
      · rw [Memory.read, if_neg h]
    · split
      · next hik =>
        subst hik
        split <;> simp [Memory.read, h]
      · simp only [Memory.read, ih]

theorem Memory.read_write {mem : Memory} (w : mem.wf = true) (i j : Nat) (x : Nat) :
    (mem.write i x).read j = if j = i then x else mem.read j := by
  split
  · next h => rw [h]; exact Memory.read_write_same w i x
  · next h => exact Memory.read_write_other mem x h

/-- Two tables in canonical form that read the same everywhere are equal data. -/
theorem Memory.wfFrom_ext {lo : Nat} {m₁ m₂ : Memory} (w₁ : Memory.wfFrom lo m₁ = true) (w₂ : Memory.wfFrom lo m₂ = true)
    (h : ∀ i, m₁.read i = m₂.read i) : m₁ = m₂ := by
  induction m₁ generalizing lo m₂ with
  | nil =>
    cases m₂ with
    | nil => rfl
    | cons cell rest =>
      obtain ⟨k, v⟩ := cell
      have w := (Memory.wfFrom_cons lo k v rest).1 w₂
      exact absurd (by simpa [Memory.read] using (h k).symm) w.2.1
  | cons cell rest ih =>
    obtain ⟨k, v⟩ := cell
    have w := (Memory.wfFrom_cons lo k v rest).1 w₁
    cases m₂ with
    | nil => exact absurd (by simpa [Memory.read] using h k) w.2.1
    | cons cell' rest' =>
      obtain ⟨k', v'⟩ := cell'
      have w' := (Memory.wfFrom_cons lo k' v' rest').1 w₂
      have hk : k = k' := by
        rcases Nat.lt_trichotomy k k' with hlt | heq | hgt
        · have := h k
          rw [Memory.read, if_pos rfl, Memory.read, if_neg (by omega), Memory.read_below w'.2.2 (by omega)] at this
          exact absurd this w.2.1
        · exact heq
        · have := (h k').symm
          rw [Memory.read, if_pos rfl, Memory.read, if_neg (by omega), Memory.read_below w.2.2 (by omega)] at this
          exact absurd this w'.2.1
      subst hk
      have hv : v = v' := by simpa [Memory.read] using h k
      subst hv
      rw [ih w.2.2 w'.2.2 fun i => ?_]
      by_cases hi : i = k
      · rw [Memory.read_below w.2.2 (by omega), Memory.read_below w'.2.2 (by omega)]
      · simpa [Memory.read, hi] using h i

theorem Memory.wf_ext {m₁ m₂ : Memory} (w₁ : m₁.wf = true) (w₂ : m₂.wf = true) (h : ∀ i, m₁.read i = m₂.read i) :
    m₁ = m₂ := Memory.wfFrom_ext w₁ w₂ h

end Sys2Proof.Machine
end

