-- ==== Sys2Proof/Laws/Construction.lean ====
section
/-! SUPPORT. The raw multiplier's loop, and what the construction leaves in the two tables. -/

namespace Sys2Proof

@[simp] theorem Params.fs_pos (p : Params) : 0 < p.fs := Nat.two_pow_pos _

theorem Params.ord_succ (p : Params) : p.ord + 1 = p.fs := Nat.succ_pred_eq_of_pos p.fs_pos

theorem Params.two_le_fs {p : Params} (h : 1 ≤ p.m) : 2 ≤ p.fs :=
  Nat.le_trans (by decide) (Nat.pow_le_pow_right (by decide) h)

theorem Params.ord_pos {p : Params} (h : 1 ≤ p.m) : 0 < p.ord := by
  have := Params.two_le_fs h; have := p.ord_succ; omega

end Sys2Proof

namespace Sys2Proof.Machine

theorem mulLoop_zero (p : Params) (fuel : Nat) (a result : Nat) : mulLoop p fuel a 0 result = result := by
  cases fuel <;> simp [mulLoop]

/-- Any two bounds that `b` fits in bits run the loop to the same result. -/
theorem mulLoop_fuel (p : Params) {f₁ f₂ : Nat} (a : Nat) {b : Nat} (result : Nat)
    (h₁ : b < 2 ^ f₁) (h₂ : b < 2 ^ f₂) : mulLoop p f₁ a b result = mulLoop p f₂ a b result := by
  induction f₁ generalizing f₂ a b result with
  | zero =>
    obtain rfl : b = 0 := by omega
    simp [mulLoop_zero]
  | succ f₁ ih =>
    cases f₂ with
    | zero =>
      obtain rfl : b = 0 := by omega
      simp [mulLoop_zero]
    | succ f₂ =>
      rw [mulLoop, mulLoop]
      split
      · rfl
      · exact ih _ _ (by rw [Nat.shiftRight_one]; omega) (by rw [Nat.shiftRight_one]; omega)

theorem mulLoop_eq_mulRaw (p : Params) {fuel : Nat} (a : Nat) {b : Nat} (h : b < 2 ^ fuel) :
    mulLoop p fuel a b 0 = mulRaw p a b :=
  mulLoop_fuel p a 0 h Nat.lt_log2_self

/-- The value of the loop's `x` before iteration `i`, which `EXP[i]` keeps. -/
def power (p : Params) (i : Nat) : Nat := (Tables.after p i).x

@[simp] theorem power_zero (p : Params) : power p 0 = 1 := rfl

theorem power_succ (p : Params) (i : Nat) : power p (i + 1) = mulRaw p (power p i) generator := rfl

theorem Tables.after_exp_wf (p : Params) (n : Nat) : (Tables.after p n).exp.wf = true := by
  induction n with
  | zero => rfl
  | succ n ih => exact Memory.wf_write (Memory.wf_write ih _ _) _ _

theorem Tables.after_log_wf (p : Params) (n : Nat) : (Tables.after p n).log.wf = true := by
  induction n with
  | zero => rfl
  | succ n ih => exact Memory.wf_write ih _ _

/-- Both tables are in canonical form, whatever the parameters. -/
theorem expRom_wf (p : Params) : (expRom p).wf = true := Tables.after_exp_wf p _

theorem logRom_wf (p : Params) : (logRom p).wf = true := Tables.after_log_wf p _

/-- What `EXP` reads as after `n` iterations: the powers, their copy `ORD` above, and 0 elsewhere. -/
theorem Tables.after_exp_read (p : Params) {n : Nat} (h : n ≤ p.ord) (k : Nat) :
    (Tables.after p n).exp.read k =
      if k < n then power p k else if p.ord ≤ k ∧ k < p.ord + n then power p (k - p.ord) else 0 := by
  induction n with
  | zero => simp [Tables.after, Tables.initial, Memory.read, Memory.unlisted]
  | succ n ih =>
    have e : n + p.fs - 1 = p.ord + n := by have := p.ord_succ; omega
    rw [Tables.after, Tables.iterate, Memory.read_write (Memory.wf_write (Tables.after_exp_wf p n) _ _),
      Memory.read_write (Tables.after_exp_wf p n), ih (by omega), e]
    by_cases h1 : k = p.ord + n
    · subst h1; simp [power, show ¬ p.ord + n < n + 1 by omega]
    · by_cases h2 : k = n
      · subst h2; simp [power]
      · have e1 : k < n + 1 ↔ k < n := by omega
        have e2 : p.ord ≤ k ∧ k < p.ord + (n + 1) ↔ p.ord ≤ k ∧ k < p.ord + n := by omega
        simp [h1, h2, e1, e2]

theorem expRom_read (p : Params) (k : Nat) :
    (expRom p).read k =
      if k < p.ord then power p k else if k < 2 * p.ord then power p (k - p.ord) else 0 := by
  rw [expRom, Tables.after_exp_read p (Nat.le_refl _)]
  by_cases h : k < p.ord
  · simp [h]
  · simp [h, show (p.ord ≤ k ∧ k < p.ord + p.ord) ↔ k < 2 * p.ord by omega]

/-- A later iteration overwrites an earlier one. -/
theorem Tables.after_log_read_succ (p : Params) (n y : Nat) :
    (Tables.after p (n + 1)).log.read y = if y = power p n then n else (Tables.after p n).log.read y := by
  rw [Tables.after, Tables.iterate, Memory.read_write (Tables.after_log_wf p n)]
  rfl

theorem Tables.after_log_read_unwritten (p : Params) {n y : Nat} (h : ∀ i < n, power p i ≠ y) :
    (Tables.after p n).log.read y = 0 := by
  induction n with
  | zero => rfl
  | succ n ih =>
    rw [Tables.after_log_read_succ, if_neg (fun e => h n (by omega) e.symm)]
    exact ih fun i hi => h i (by omega)

end Sys2Proof.Machine
end

