-- ==== Sys2Proof/Laws/Decode.lean ====
section
/-! SUPPORT. Taking a request word apart gives the request it was put together from. -/

namespace Sys2Proof

@[simp] theorem Params.isElement_iff {p : Params} {x : Nat} : p.isElement x = true ↔ x < p.fs := by
  simp [Params.isElement]

theorem Request.fits_iff {p : Params} {r : Request} : r.fits p = true ↔ r.a < 2 ^ p.m ∧ r.b < 2 ^ p.m := by
  simp [Request.fits, Params.fs]

/-- The word as a sum: its three fields do not overlap. -/
theorem Request.toWord_eq_add {m : Nat} {r : Request} (ha : r.a < 2 ^ m) :
    r.toWord m = r.op.toNat + 2 ^ 4 * r.a + 2 ^ (m + 4) * r.b := by
  have hop : r.op.toNat < 2 ^ 4 := r.op.isLt
  have h1 : r.op.toNat ||| (r.a <<< 4) = r.op.toNat + 2 ^ 4 * r.a := by
    rw [Nat.shiftLeft_eq, Nat.mul_comm r.a, Nat.or_comm, ← Nat.two_pow_add_eq_or_of_lt hop, Nat.add_comm]
  have h2 : r.op.toNat + 2 ^ 4 * r.a < 2 ^ (m + 4) := by
    have : 2 ^ (m + 4) = 2 ^ 4 * 2 ^ m := by rw [Nat.pow_add, Nat.mul_comm]
    omega
  rw [Request.toWord, h1, Nat.shiftLeft_eq, Nat.mul_comm r.b, Nat.or_comm, ← Nat.two_pow_add_eq_or_of_lt h2,
    Nat.add_comm]

theorem Request.toWord_lt {m : Nat} {r : Request} (ha : r.a < 2 ^ m) (hb : r.b < 2 ^ m) :
    r.toWord m < 2 ^ requestBits m := by
  have hop : r.op.toNat < 2 ^ 4 := r.op.isLt
  rw [Request.toWord_eq_add ha, requestBits]
  have e1 : 2 ^ (m + 4) = 2 ^ 4 * 2 ^ m := by rw [Nat.pow_add, Nat.mul_comm]
  have e2 : 2 ^ (2 * m + 4) = 2 ^ (m + 4) * 2 ^ m := by rw [← Nat.pow_add]; congr 1; omega
  have h2 : r.op.toNat + 2 ^ 4 * r.a < 2 ^ (m + 4) := by omega
  have h3 : 2 ^ (m + 4) * (r.b + 1) ≤ 2 ^ (m + 4) * 2 ^ m := Nat.mul_le_mul_left _ hb
  rw [e2]; rw [Nat.mul_add] at h3; omega

theorem Request.ofWord_toWord {m : Nat} {r : Request} (ha : r.a < 2 ^ m) (hb : r.b < 2 ^ m) :
    Request.ofWord m (r.toWord m) = r := by
  have hop : r.op.toNat < 2 ^ 4 := r.op.isLt
  have e1 : 2 ^ (m + 4) = 2 ^ 4 * 2 ^ m := by rw [Nat.pow_add, Nat.mul_comm]
  have ew := Request.toWord_eq_add ha
  have h0 : bitField (r.toWord m) 0 4 = r.op.toNat := by
    rw [bitField, Nat.shiftRight_zero, ew, e1, Nat.mul_assoc, Nat.add_assoc, ← Nat.mul_add, Nat.add_mul_mod_self_left,
      Nat.mod_eq_of_lt hop]
  have h1 : bitField (r.toWord m) 4 m = r.a := by
    rw [bitField, Nat.shiftRight_eq_div_pow, ew, e1, Nat.mul_assoc, Nat.add_assoc, ← Nat.mul_add,
      Nat.add_mul_div_left _ _ (by decide), Nat.div_eq_of_lt hop, Nat.zero_add, Nat.add_mul_mod_self_left,
      Nat.mod_eq_of_lt ha]
  have h2 : bitField (r.toWord m) (m + 4) m = r.b := by
    have hlt : r.op.toNat + 2 ^ 4 * r.a < 2 ^ (m + 4) := by omega
    rw [bitField, Nat.shiftRight_eq_div_pow, ew, Nat.add_mul_div_left _ _ (Nat.two_pow_pos _), Nat.div_eq_of_lt hlt,
      Nat.zero_add, Nat.mod_eq_of_lt hb]
  rw [Request.ofWord, h0, h1, h2]
  simp

theorem bitField_lt (w : Nat) (lo width : Nat) : bitField w lo width < 2 ^ width := Nat.mod_lt _ (Nat.two_pow_pos _)

theorem decode_of_lt {m : Nat} {w : Nat} (h : w < 2 ^ requestBits m) :
    decode m w = .ok ((Request.ofWord m w).decode m) := if_pos h

theorem decode_of_not_lt {m : Nat} {w : Nat} (h : ¬ w < 2 ^ requestBits m) : decode m w = .error .wordTooWide :=
  if_neg h

end Sys2Proof
end

