-- ==== Sys2Proof/Laws/State.lean ====
section
/-! SUPPORT. One lemma for each field of the state under each update. -/

namespace Sys2Proof.Machine

@[simp] theorem State.offering_params (s : State) (x : Nat) (e : ErrCode) : (s.offering x e).params = s.params := rfl
@[simp] theorem State.offering_exp (s : State) (x : Nat) (e : ErrCode) : (s.offering x e).exp = s.exp := rfl
@[simp] theorem State.offering_log (s : State) (x : Nat) (e : ErrCode) : (s.offering x e).log = s.log := rfl
@[simp] theorem State.offering_q (s : State) (x : Nat) (e : ErrCode) : (s.offering x e).q = s.q := rfl
@[simp] theorem State.offering_rsp (s : State) (x : Nat) (e : ErrCode) : (s.offering x e).rsp = some { result := x, err := e } := rfl
@[simp] theorem State.offering_reqReady (s : State) (x : Nat) (e : ErrCode) : (s.offering x e).reqReady = s.reqReady := rfl
@[simp] theorem State.offering_presented (s : State) (x : Nat) (e : ErrCode) : (s.offering x e).presented = s.presented := rfl
@[simp] theorem State.offering_schedule (s : State) (x : Nat) (e : ErrCode) : (s.offering x e).schedule = s.schedule := rfl
@[simp] theorem State.offering_taken (s : State) (x : Nat) (e : ErrCode) : (s.offering x e).taken = s.taken := rfl
@[simp] theorem State.offering_tick (s : State) (x : Nat) (e : ErrCode) : (s.offering x e).tick = s.tick := rfl

@[simp] theorem State.accept_params (s : State) (r : Request) : (s.accept r).params = s.params := rfl
@[simp] theorem State.accept_exp (s : State) (r : Request) : (s.accept r).exp = s.exp := rfl
@[simp] theorem State.accept_log (s : State) (r : Request) : (s.accept r).log = s.log := rfl
@[simp] theorem State.accept_q (s : State) (r : Request) : (s.accept r).q = s.q ++ [r] := rfl
@[simp] theorem State.accept_rsp (s : State) (r : Request) : (s.accept r).rsp = s.rsp := rfl
@[simp] theorem State.accept_reqReady (s : State) (r : Request) : (s.accept r).reqReady = s.reqReady := rfl
@[simp] theorem State.accept_presented (s : State) (r : Request) : (s.accept r).presented = [] := rfl
@[simp] theorem State.accept_schedule (s : State) (r : Request) : (s.accept r).schedule = s.schedule := rfl
@[simp] theorem State.accept_taken (s : State) (r : Request) : (s.accept r).taken = s.taken := rfl
@[simp] theorem State.accept_tick (s : State) (r : Request) : (s.accept r).tick = s.tick := rfl

@[simp] theorem State.resetEdge_params (s : State) : (s.resetEdge).params = s.params := rfl
@[simp] theorem State.resetEdge_exp (s : State) : (s.resetEdge).exp = s.exp := rfl
@[simp] theorem State.resetEdge_log (s : State) : (s.resetEdge).log = s.log := rfl
@[simp] theorem State.resetEdge_q (s : State) : (s.resetEdge).q = [] := rfl
@[simp] theorem State.resetEdge_rsp (s : State) : (s.resetEdge).rsp = none := rfl
@[simp] theorem State.resetEdge_reqReady (s : State) : (s.resetEdge).reqReady = false := rfl
@[simp] theorem State.resetEdge_presented (s : State) : (s.resetEdge).presented = [] := rfl
@[simp] theorem State.resetEdge_schedule (s : State) : (s.resetEdge).schedule = s.schedule := rfl
@[simp] theorem State.resetEdge_taken (s : State) : (s.resetEdge).taken = s.taken := rfl
@[simp] theorem State.resetEdge_tick (s : State) : (s.resetEdge).tick = s.tick := rfl

@[simp] theorem State.beginCycle_params (s : State) (c : Cycle) : (s.beginCycle c).params = s.params := rfl
@[simp] theorem State.beginCycle_exp (s : State) (c : Cycle) : (s.beginCycle c).exp = s.exp := rfl
@[simp] theorem State.beginCycle_log (s : State) (c : Cycle) : (s.beginCycle c).log = s.log := rfl
@[simp] theorem State.beginCycle_q (s : State) (c : Cycle) : (s.beginCycle c).q = s.q := rfl
@[simp] theorem State.beginCycle_rsp (s : State) (c : Cycle) : (s.beginCycle c).rsp = s.rsp := rfl
@[simp] theorem State.beginCycle_reqReady (s : State) (c : Cycle) : (s.beginCycle c).reqReady = s.drivesReady c := rfl
@[simp] theorem State.beginCycle_presented (s : State) (c : Cycle) : (s.beginCycle c).presented = s.presented := rfl
@[simp] theorem State.beginCycle_schedule (s : State) (c : Cycle) : (s.beginCycle c).schedule = s.schedule.tail := rfl
@[simp] theorem State.beginCycle_taken (s : State) (c : Cycle) : (s.beginCycle c).taken = s.taken := rfl
@[simp] theorem State.beginCycle_tick (s : State) (c : Cycle) : (s.beginCycle c).tick = s.tick + 1 := rfl

@[simp] theorem State.placeOldest_params (s : State) (r : Request) : (s.placeOldest r).params = s.params := rfl
@[simp] theorem State.placeOldest_exp (s : State) (r : Request) : (s.placeOldest r).exp = s.exp := rfl
@[simp] theorem State.placeOldest_log (s : State) (r : Request) : (s.placeOldest r).log = s.log := rfl
@[simp] theorem State.placeOldest_q (s : State) (r : Request) : (s.placeOldest r).q = r :: s.q.tail := rfl
@[simp] theorem State.placeOldest_rsp (s : State) (r : Request) : (s.placeOldest r).rsp = none := rfl
@[simp] theorem State.placeOldest_reqReady (s : State) (r : Request) : (s.placeOldest r).reqReady = s.reqReady := rfl
@[simp] theorem State.placeOldest_presented (s : State) (r : Request) : (s.placeOldest r).presented = s.presented := rfl
@[simp] theorem State.placeOldest_schedule (s : State) (r : Request) : (s.placeOldest r).schedule = Cycle.offersOnly :: s.schedule := rfl
@[simp] theorem State.placeOldest_taken (s : State) (r : Request) : (s.placeOldest r).taken = s.taken := rfl
@[simp] theorem State.placeOldest_tick (s : State) (r : Request) : (s.placeOldest r).tick = s.tick := rfl

@[simp] theorem State.fresh_params (p : Params) : (State.fresh p).params = p := rfl
@[simp] theorem State.fresh_exp (p : Params) : (State.fresh p).exp = expRom p := rfl
@[simp] theorem State.fresh_log (p : Params) : (State.fresh p).log = logRom p := rfl
@[simp] theorem State.fresh_q (p : Params) : (State.fresh p).q = [] := rfl
@[simp] theorem State.fresh_rsp (p : Params) : (State.fresh p).rsp = none := rfl
@[simp] theorem State.fresh_reqReady (p : Params) : (State.fresh p).reqReady = false := rfl
@[simp] theorem State.fresh_presented (p : Params) : (State.fresh p).presented = [] := rfl
@[simp] theorem State.fresh_schedule (p : Params) : (State.fresh p).schedule = [] := rfl
@[simp] theorem State.fresh_taken (p : Params) : (State.fresh p).taken = [] := rfl
@[simp] theorem State.fresh_tick (p : Params) : (State.fresh p).tick = 0 := rfl

@[simp] theorem State.takeResponse_params (s : State) : s.takeResponse.params = s.params := by
  unfold State.takeResponse; split <;> rfl
@[simp] theorem State.takeResponse_exp (s : State) : s.takeResponse.exp = s.exp := by
  unfold State.takeResponse; split <;> rfl
@[simp] theorem State.takeResponse_log (s : State) : s.takeResponse.log = s.log := by
  unfold State.takeResponse; split <;> rfl
@[simp] theorem State.takeResponse_reqReady (s : State) : s.takeResponse.reqReady = s.reqReady := by
  unfold State.takeResponse; split <;> rfl
@[simp] theorem State.takeResponse_presented (s : State) : s.takeResponse.presented = s.presented := by
  unfold State.takeResponse; split <;> rfl
@[simp] theorem State.takeResponse_schedule (s : State) : s.takeResponse.schedule = s.schedule := by
  unfold State.takeResponse; split <;> rfl
@[simp] theorem State.takeResponse_tick (s : State) : s.takeResponse.tick = s.tick := by
  unfold State.takeResponse; split <;> rfl

@[simp] theorem State.responseEdge_params (s : State) (c : Cycle) : (s.responseEdge c).params = s.params := by
  unfold State.responseEdge; split <;> simp
@[simp] theorem State.responseEdge_exp (s : State) (c : Cycle) : (s.responseEdge c).exp = s.exp := by
  unfold State.responseEdge; split <;> simp
@[simp] theorem State.responseEdge_log (s : State) (c : Cycle) : (s.responseEdge c).log = s.log := by
  unfold State.responseEdge; split <;> simp
@[simp] theorem State.responseEdge_reqReady (s : State) (c : Cycle) : (s.responseEdge c).reqReady = s.reqReady := by
  unfold State.responseEdge; split <;> simp
@[simp] theorem State.responseEdge_presented (s : State) (c : Cycle) : (s.responseEdge c).presented = s.presented := by
  unfold State.responseEdge; split <;> simp
@[simp] theorem State.responseEdge_schedule (s : State) (c : Cycle) : (s.responseEdge c).schedule = s.schedule := by
  unfold State.responseEdge; split <;> simp
@[simp] theorem State.responseEdge_tick (s : State) (c : Cycle) : (s.responseEdge c).tick = s.tick := by
  unfold State.responseEdge; split <;> simp

@[simp] theorem State.requestEdge_params (s : State) (c : Cycle) : (s.requestEdge c).params = s.params := by
  unfold State.requestEdge; split <;> [split; skip] <;> rfl
@[simp] theorem State.requestEdge_exp (s : State) (c : Cycle) : (s.requestEdge c).exp = s.exp := by
  unfold State.requestEdge; split <;> [split; skip] <;> rfl
@[simp] theorem State.requestEdge_log (s : State) (c : Cycle) : (s.requestEdge c).log = s.log := by
  unfold State.requestEdge; split <;> [split; skip] <;> rfl
@[simp] theorem State.requestEdge_rsp (s : State) (c : Cycle) : (s.requestEdge c).rsp = s.rsp := by
  unfold State.requestEdge; split <;> [split; skip] <;> rfl
@[simp] theorem State.requestEdge_schedule (s : State) (c : Cycle) : (s.requestEdge c).schedule = s.schedule := by
  unfold State.requestEdge; split <;> [split; skip] <;> rfl
@[simp] theorem State.requestEdge_taken (s : State) (c : Cycle) : (s.requestEdge c).taken = s.taken := by
  unfold State.requestEdge; split <;> [split; skip] <;> rfl
@[simp] theorem State.requestEdge_tick (s : State) (c : Cycle) : (s.requestEdge c).tick = s.tick := by
  unfold State.requestEdge; split <;> [split; skip] <;> rfl
@[simp] theorem State.requestEdge_reqReady (s : State) (c : Cycle) : (s.requestEdge c).reqReady = s.reqReady := by
  unfold State.requestEdge; split <;> [split; skip] <;> rfl

@[simp] theorem State.edge_params (s : State) (c : Cycle) : (s.edge c).params = s.params := by
  unfold State.edge; split <;> simp
@[simp] theorem State.edge_exp (s : State) (c : Cycle) : (s.edge c).exp = s.exp := by
  unfold State.edge; split <;> simp
@[simp] theorem State.edge_log (s : State) (c : Cycle) : (s.edge c).log = s.log := by
  unfold State.edge; split <;> simp
@[simp] theorem State.edge_schedule (s : State) (c : Cycle) : (s.edge c).schedule = s.schedule := by
  unfold State.edge; split <;> simp
@[simp] theorem State.edge_tick (s : State) (c : Cycle) : (s.edge c).tick = s.tick := by
  unfold State.edge; split <;> simp

end Sys2Proof.Machine
end

