-- ==== Sys2Proof/Laws/Exec.lean ====
section
/-! SUPPORT. For each shared operation, once, everything it can do. -/

namespace Sys2Proof.Machine

@[simp] theorem andThen_next_left (s : State) (k : State → Result) : andThen (.next s) k = k s := rfl

@[simp] theorem andThen_fault (f : Fault) (k : State → Result) : andThen (.fault f) k = .fault f := rfl

@[simp] theorem andThen_refused (r : Refusal) (k : State → Result) : andThen (.refused r) k = .refused r := rfl

theorem andThen_next {r : Result} {k : State → Result} {t : State} (h : andThen r k = .next t) :
    ∃ u, r = .next u ∧ k u = .next t := by
  cases r with
  | next u => exact ⟨u, rfl, h⟩
  | fault f => cases h
  | refused f => cases h

theorem State.respond_next {s t : State} {x : Nat} {e : ErrCode} (h : s.respond x e = .next t) :
    t = s.offering x e := by cases h; rfl

theorem State.raise_next {s t : State} {e : ErrCode} (h : s.raise e = .next t) : t = s.offering 0 e := by
  cases h; rfl

theorem State.readExp_of_lt {s : State} {i : Nat} (h : i < 2 * s.params.fs) (k : Nat → Result) :
    s.readExp i k = k (s.exp.read i) := if_pos h

theorem State.readLog_of_lt {s : State} {i : Nat} (h : i < s.params.fs) (k : Nat → Result) :
    s.readLog i k = k (s.log.read i) := if_pos h

theorem State.readExp_next {s t : State} {i : Nat} {k : Nat → Result} (h : s.readExp i k = .next t) :
    i < 2 * s.params.fs ∧ k (s.exp.read i) = .next t := by
  unfold State.readExp at h; split at h
  · exact ⟨‹_›, h⟩
  · cases h

theorem State.readLog_next {s t : State} {i : Nat} {k : Nat → Result} (h : s.readLog i k = .next t) :
    i < s.params.fs ∧ k (s.log.read i) = .next t := by
  unfold State.readLog at h; split at h
  · exact ⟨‹_›, h⟩
  · cases h

theorem eucMod_lt (x : Int) {n : Nat} (h : 0 < n) : eucMod x n < n := by
  have h1 := Int.emod_nonneg x (b := (n : Int)) (by omega)
  have h2 := Int.emod_lt_of_pos x (b := (n : Int)) (by omega)
  unfold eucMod; omega

/-- Everything an instruction can do when it runs: offer one response. -/
theorem exec_next {i : Instr} {s t : State} (h : exec i s = .next t) : ∃ x e, t = s.offering x e := by
  cases i with
  | add a b => exact ⟨_, _, State.respond_next h⟩
  | sub a b => exact ⟨_, _, State.respond_next h⟩
  | mul a b =>
    simp only [exec, execMul] at h
    split at h
    · exact ⟨_, _, State.respond_next h⟩
    · exact ⟨_, _, State.respond_next (State.readExp_next (State.readLog_next (State.readLog_next h).2).2).2⟩
  | div a b =>
    simp only [exec, execDiv] at h
    split at h
    · exact ⟨_, _, State.raise_next h⟩
    · split at h
      · exact ⟨_, _, State.respond_next h⟩
      · exact ⟨_, _, State.respond_next (State.readExp_next (State.readLog_next (State.readLog_next h).2).2).2⟩
  | inv a =>
    simp only [exec, execInv] at h
    split at h
    · exact ⟨_, _, State.raise_next h⟩
    · exact ⟨_, _, State.respond_next (State.readExp_next (State.readLog_next h).2).2⟩
  | mulraw a b => exact ⟨_, _, State.respond_next h⟩
  | exprd idx =>
    simp only [exec, execExprd] at h
    exact ⟨_, _, State.respond_next (State.readExp_next h).2⟩
  | logrd a =>
    simp only [exec, execLogrd] at h
    exact ⟨_, _, State.respond_next (State.readLog_next h).2⟩
  | reserved op => exact ⟨_, _, State.raise_next h⟩

end Sys2Proof.Machine
end

