-- ==== Sys2Proof/Laws/PerInstr.lean ====
section
/-! SUPPORT. Statements for all instructions, made constructor by constructor. -/

namespace Sys2Proof.Laws.EncodedFieldsFit

/-- The request of a well-formed instruction fits the request ports, and its word is a request word. -/
def Statement (i : Instr) : Prop :=
  ∀ p : Params, 1 ≤ p.m → i.wf p = true → (i.request p.m).fits p = true ∧ encode p.m i < 2 ^ requestBits p.m

theorem of_fields {i : Instr} (h : ∀ p : Params, 1 ≤ p.m → i.wf p = true → i.fieldA p.m < 2 ^ p.m ∧ i.fieldB p.m < 2 ^ p.m) :
    Statement i := fun p hm w =>
  ⟨Request.fits_iff.2 (h p hm w), Request.toWord_lt (h p hm w).1 (h p hm w).2⟩

/-- Two element operands fit their fields. -/
theorem elements_lt {p : Params} {a b : Nat} (h : (p.isElement a && p.isElement b) = true) :
    a < 2 ^ p.m ∧ b < 2 ^ p.m :=
  have h := (Bool.and_eq_true_iff).1 h
  ⟨of_decide_eq_true h.1, of_decide_eq_true h.2⟩

theorem add (a b : Nat) : Statement (.add a b) :=
  of_fields fun _ _ w => elements_lt w

theorem sub (a b : Nat) : Statement (.sub a b) :=
  of_fields fun _ _ w => elements_lt w

theorem mul (a b : Nat) : Statement (.mul a b) :=
  of_fields fun _ _ w => elements_lt w

theorem div (a b : Nat) : Statement (.div a b) :=
  of_fields fun _ _ w => elements_lt w

theorem inv (a : Nat) : Statement (.inv a) :=
  of_fields fun p _ w => ⟨of_decide_eq_true w, Nat.two_pow_pos p.m⟩

theorem mulraw (a b : Nat) : Statement (.mulraw a b) :=
  of_fields fun _ _ w => elements_lt w

theorem exprd (idx : Nat) : Statement (.exprd idx) :=
  of_fields fun p hm w => by
    have h : idx < 2 * 2 ^ p.m := of_decide_eq_true w
    have hp := Nat.two_pow_pos p.m
    refine ⟨?_, ?_⟩
    · simp only [Instr.fieldA, Nat.and_two_pow_sub_one_eq_mod]; exact Nat.mod_lt _ hp
    · simp only [Instr.fieldB, Nat.shiftRight_eq_div_pow]
      refine (Nat.div_lt_iff_lt_mul hp).2 ?_
      exact Nat.lt_of_lt_of_le h (Nat.mul_le_mul_right _ (Nat.le_trans (by decide) (Nat.pow_le_pow_right (by decide) hm)))

theorem logrd (a : Nat) : Statement (.logrd a) :=
  of_fields fun p _ w => ⟨of_decide_eq_true w, Nat.two_pow_pos p.m⟩

theorem reserved (op : BitVec 4) : Statement (.reserved op) :=
  of_fields fun p _ _ => ⟨Nat.two_pow_pos p.m, Nat.two_pow_pos p.m⟩

end Sys2Proof.Laws.EncodedFieldsFit
end

