-- ==== Sys2Proof/Laws/Step.lean ====
section
/-! SUPPORT. The handshake operations case by case, and everything one clock cycle can do. -/

namespace Sys2Proof.Machine

theorem State.takeResponse_of_some {s : State} {r : Response} (h : s.rsp = some r) :
    s.takeResponse = { s with q := s.q.tail, rsp := none, taken := s.taken ++ [r] } := by
  simp [State.takeResponse, h]

theorem State.takeResponse_of_none {s : State} (h : s.rsp = none) : s.takeResponse = s := by
  simp [State.takeResponse, h]

theorem State.edge_of_rst (s : State) {c : Cycle} (h : c.rst = true) : s.edge c = s.resetEdge := by
  simp [State.edge, h]

theorem State.edge_of_not_rst (s : State) {c : Cycle} (h : c.rst = false) :
    s.edge c = (s.responseEdge c).requestEdge c := by
  simp [State.edge, h]

theorem State.issues_eq_some {s : State} {c : Cycle} {r : Request} (h : s.issues c = some r) :
    c.rst = false ∧ c.offer = true ∧ s.rsp = none ∧ s.q.head? = some r := by
  unfold State.issues at h
  split at h
  · next hc => simp at hc; exact ⟨hc.1.1, hc.1.2, hc.2, h⟩
  · cases h

/-- Either the block executes the oldest request, or the state stays. -/
theorem State.drive_next {s t : State} {c : Cycle} (h : s.drive c = .next t) :
    (∃ r, s.issues c = some r ∧ exec (r.decode s.params.m) s = .next t) ∨ (s.issues c = none ∧ t = s) := by
  unfold State.drive at h
  split at h
  · next r hr => exact .inl ⟨r, hr, h⟩
  · next hr => cases h; exact .inr ⟨hr, rfl⟩

/-- Everything one clock cycle can do. -/
theorem State.inCycle_next {s t : State} {c : Cycle} (h : s.inCycle c = .next t) :
    ∃ u, (s.beginCycle c).drive c = .next u ∧ t = u.edge c := by
  obtain ⟨u, hu, ht⟩ := andThen_next h
  exact ⟨u, hu, by cases ht; rfl⟩

theorem State.inCycle_of_drive {s u : State} {c : Cycle} (h : (s.beginCycle c).drive c = .next u) :
    s.inCycle c = .next (u.edge c) := by
  rw [State.inCycle, h, andThen_next_left]

theorem step_next {s t : State} (h : step s = .next t) :
    ∃ u, (s.beginCycle s.nextCycle).drive s.nextCycle = .next u ∧ t = u.edge s.nextCycle :=
  State.inCycle_next h

theorem step_of_drive {s u : State} (h : (s.beginCycle s.nextCycle).drive s.nextCycle = .next u) :
    step s = .next (u.edge s.nextCycle) := State.inCycle_of_drive h

/-- Past the end of the schedule the cycle is the willing one, and the schedule stays empty. -/
theorem State.nextCycle_of_empty {s : State} (h : s.schedule = []) : s.nextCycle = Cycle.willing := by
  rw [State.nextCycle, h]

theorem State.nextCycle_of_cons {s : State} {c : Cycle} {rest : List Cycle} (h : s.schedule = c :: rest) :
    s.nextCycle = c := by rw [State.nextCycle, h]

/-- A cycle shortens the schedule by the cycle it began with, whatever else it does. -/
theorem State.inCycle_schedule {s t : State} {c : Cycle} (h : s.inCycle c = .next t) : t.schedule = s.schedule.tail := by
  obtain ⟨u, hu, rfl⟩ := State.inCycle_next h
  rw [State.edge_schedule]
  obtain ⟨r, -, hx⟩ | ⟨-, rfl⟩ := State.drive_next hu
  · obtain ⟨x, e, rfl⟩ := exec_next hx
    simp
  · simp

theorem State.withPresented_ne_nil (s : State) (r : Request) : s.withPresented r ≠ [] := by
  unfold State.withPresented; split
  · next h => exact List.ne_nil_of_mem h
  · simp

theorem State.mem_withPresented {s : State} {r x : Request} (h : x ∈ s.withPresented r) : x ∈ s.presented ∨ x = r := by
  unfold State.withPresented at h; split at h
  · exact .inl h
  · simpa using h

/-- An acceptance accepts one of the requests presented. -/
theorem State.accepts_mem (s : State) (r : Request) : s.accepts r ∈ s.withPresented r := by
  unfold State.accepts
  split
  · next h => simp [h]
  · have h := List.length_pos_iff.2 (s.withPresented_ne_nil r)
    rw [List.getD_eq_getElem _ _ (Nat.mod_lt _ h)]
    exact List.getElem_mem _

/-- A host that keeps its request unchanged has exactly that request accepted. -/
theorem State.accepts_of_kept {s : State} {r : Request} (h : ∀ x ∈ s.presented, x = r) (hn : s.presented.length ≤ 1) :
    s.accepts r = r := by
  have : s.withPresented r = [r] := by
    unfold State.withPresented
    match hs : s.presented with
    | [] => simp
    | [x] => obtain rfl := h x (by simp [hs]); simp
    | x :: y :: l => simp [hs] at hn
  simp [State.accepts, this]

end Sys2Proof.Machine
end

