-- ==== Sys2Proof/Tests/Slice0.lean ====
section
/-! SUPPORT. The model's own tests.  Expected values come from spec/95_test_vectors.md (the section is named at each
group) or from the rule named; each test is about one step or one function. -/

namespace Sys2Proof.Tests

open Sys2Proof.Machine

/-! ### Well-formedness: one ill-formed term for each check -/

def p4 : Params := { m := 4, poly := 0x13, depth := 2 }

theorem test_wf_add_refuses_a : (Instr.add 16 15).wf p4 = false := by decide
theorem test_wf_add_refuses_b : (Instr.add 15 16).wf p4 = false := by decide
theorem test_wf_sub_refuses_a : (Instr.sub 16 0).wf p4 = false := by decide
theorem test_wf_sub_refuses_b : (Instr.sub 0 16).wf p4 = false := by decide
theorem test_wf_mul_refuses_a : (Instr.mul 16 1).wf p4 = false := by decide
theorem test_wf_mul_refuses_b : (Instr.mul 1 16).wf p4 = false := by decide
theorem test_wf_div_refuses_a : (Instr.div 16 1).wf p4 = false := by decide
theorem test_wf_div_refuses_b : (Instr.div 1 16).wf p4 = false := by decide
theorem test_wf_inv_refuses : (Instr.inv 16).wf p4 = false := by decide
theorem test_wf_mulraw_refuses_a : (Instr.mulraw 16 1).wf p4 = false := by decide
theorem test_wf_mulraw_refuses_b : (Instr.mulraw 1 16).wf p4 = false := by decide
theorem test_wf_exprd_refuses : (Instr.exprd 32).wf p4 = false := by decide
theorem test_wf_logrd_refuses : (Instr.logrd 16).wf p4 = false := by decide
theorem test_wf_reserved_refuses : (Instr.reserved 0x7).wf p4 = false := by decide
theorem test_wf_accepts_the_largest : (Instr.add 15 15).wf p4 = true ∧ (Instr.exprd 31).wf p4 = true := by decide
theorem test_fits_refuses_a : Request.fits p4 { op := 0, a := 16, b := 0 } = false := by decide
theorem test_fits_refuses_b : Request.fits p4 { op := 0, a := 0, b := 16 } = false := by decide

/-! ### Decoding (spec/95_test_vectors.md section 4.1; each word is `b a op`, four bits each) -/

theorem test_decode_add : decode 4 0b1101_1011_0000 = .ok (.add 11 13) := by decide
theorem test_decode_sub : decode 4 0b1101_1011_0001 = .ok (.sub 11 13) := by decide
theorem test_decode_mul : decode 4 0b1101_1011_0010 = .ok (.mul 11 13) := by decide
theorem test_decode_div : decode 4 0b1001_0010_0011 = .ok (.div 2 9) := by decide
theorem test_decode_inv_ignores_b : decode 4 0b1111_1011_0100 = .ok (.inv 11) := by decide
theorem test_decode_mulraw : decode 4 0b0010_1000_0101 = .ok (.mulraw 8 2) := by decide
theorem test_decode_exprd_ignores_high_b : decode 4 0b0011_0111_0110 = .ok (.exprd 23) := by decide
theorem test_decode_logrd_ignores_b : decode 4 0b1111_1011_0111 = .ok (.logrd 11) := by decide
theorem test_decode_reserved_first : decode 4 0b0000_0000_1000 = .ok (.reserved 0x8) := by decide
theorem test_decode_reserved_last : decode 4 0b0101_0011_1111 = .ok (.reserved 0xF) := by decide
theorem test_decode_refuses_wider : decode 4 0x1000 = .error .wordTooWide := by decide
theorem test_decode_m1 : decode 1 0b1_0_0110 = .ok (.exprd 2) := by decide
theorem test_decode_m8 : decode 8 0xCDAB3 = .ok (.div 0xAB 0xCD) := by decide
theorem test_decodeTableWord : decodeTableWord 8 0xB4 = some (.inv 11) := by decide

/-- Sections 4.1, 4.6 and 4.7: words the assembler forms encode to. -/
theorem test_encode :
    encode 4 (.div 2 9) = 0x923 ∧ encode 4 (.exprd 30) = 0x1E6 ∧ encode 8 (.logrd 0x8E) = 0x008E7 ∧
      encode 16 (.exprd 131070) = 0x0001FFFE6 := by decide

/-- Section 4.1, row 16: the response word of EDIVZ. -/
theorem test_response_word : responseWord 4 { result := 0, err := .edivz } = 0x10 := by decide

/-! ### The tables (sections 3.1 and 3.2) -/

theorem test_exp_rom : (List.range 32).map (expRom p4).read =
    [1, 2, 4, 8, 3, 6, 12, 11, 5, 10, 7, 14, 15, 13, 9, 1] ++ [2, 4, 8, 3, 6, 12, 11, 5, 10, 7, 14, 15, 13, 9, 0, 0] := by
  decide

theorem test_log_rom : (List.range 16).map (logRom p4).read = [0, 0, 1, 4, 2, 8, 5, 10, 3, 14, 9, 7, 6, 13, 11, 12] := by
  decide

/-- PRIM_POLY = 0x1F: x has order 5, and LOG[1] is the last iteration that wrote 1. -/
theorem test_log_rom_degenerate : (List.range 16).map (logRom { m := 4, poly := 0x1F, depth := 1 }).read =
    [0, 10, 11, 0, 12, 0, 0, 0, 13, 0, 0, 0, 0, 0, 0, 14] := by decide

/-- PRIM_POLY = 0x10: x becomes 0, so LOG[0] is the last iteration. -/
theorem test_log_rom_nilpotent : (List.range 4).map (logRom { m := 4, poly := 0x10, depth := 1 }).read = [14, 0, 1, 0] := by
  decide

theorem test_memory_write_unlisted : Memory.write [(1, 5)] 1 0 = [] := by decide

theorem test_p4_primitive : Primitive p4 := by decide

/-! ### One instruction, run as the next step of a block that holds it (section 4.1, and 4.7 and 4.8 where named) -/

/-- The response word on offer after the step that runs a request word. -/
def runs (s : State) (w : Nat) : Option Nat :=
  match step (s.withFetchWord 40 w) with
  | .next t => t.rsp.map (responseWord t.params.m)
  | .fault _ => none
  | .refused _ => none

theorem test_add : runs State.reset 0xDB0 = some 0x06 := by decide
theorem test_add_self : runs State.reset 0xFF0 = some 0x00 := by decide
theorem test_sub : runs State.reset 0xDB1 = some 0x06 := by decide
theorem test_mul_wraps_the_log_sum : runs State.reset 0xDB2 = some 0x06 := by decide
theorem test_mul_zero : runs State.reset 0x702 = some 0x00 := by decide
theorem test_div_negative_difference : runs State.reset 0x213 = some 0x09 := by decide
theorem test_div_zero_by_zero : runs State.reset 0x003 = some 0x10 := by decide
theorem test_inv : runs State.reset 0xFB4 = some 0x05 := by decide
theorem test_inv_zero : runs State.reset 0xF04 = some 0x20 := by decide
theorem test_mulraw : runs State.reset 0xFF5 = some 0x0A := by decide
theorem test_exprd_copy : runs State.reset 0x376 = some 0x05 := by decide
theorem test_exprd_unwritten : runs State.reset 0x1E6 = some 0x00 := by decide
theorem test_logrd : runs State.reset 0xFB7 = some 0x07 := by decide
theorem test_logrd_zero : runs State.reset 0x007 = some 0x00 := by decide
theorem test_reserved : runs State.reset 0xFF9 = some 0x30 := by decide

/-- Section 4.8: under 0x1F, MUL follows the tables. -/
theorem test_mul_degenerate : runs (State.fresh { m := 4, poly := 0x1F, depth := 1 }) 0x332 = some 0x01 := by decide

/-- Section 4.7, row 2. -/
theorem test_mulraw_m16 : mulRaw { m := 16, poly := 0x1100B, depth := 1 } 0x1234 0xABCD = 0x4792 := by decide

/-! ### The handshake (spec/20_memory.md R47, R48; spec/70_reset_and_hazards.md R160, R164; section 5) -/

/-- The request of a word of GF(2^4). -/
def req (w : Nat) : Request := Request.ofWord 4 w

def presenting (w : Nat) : Cycle := { Cycle.quiet with reqValid := true, req := req w, ready := true }

/-- A block with two requests in flight, the older one's response on offer, and an idle cycle to come. -/
def busy : State :=
  { State.reset with q := [req 0xDB2, req 0x073], rsp := some { result := 6, err := .ok }, reqReady := true,
                       schedule := [Cycle.quiet] }

theorem busy_inv : busy.Inv :=
  ⟨⟨by decide, rfl, rfl⟩, by decide, by decide, by decide, by decide, by decide⟩

theorem reset_built : State.reset.Built := ⟨by decide, rfl, rfl⟩

theorem reset_inv_with {sched : List Cycle} (h : State.PortsFit { State.reset with schedule := sched }) :
    State.Inv { State.reset with schedule := sched } where
  built := ⟨reset_built.legal, reset_built.exp_eq, reset_built.log_eq⟩
  depth := Nat.zero_le _
  queueFits := fun _ hr => absurd hr List.not_mem_nil
  presentedFits := fun _ hr => absurd hr List.not_mem_nil
  portsFit := h
  offered := .inl rfl

/-- What one step leaves of the queue, the responses taken and `req_ready`. -/
def after (s : State) : Option (List Request × List Response × Bool) :=
  match step s with
  | .next t => some (t.q, t.taken, t.reqReady)
  | .fault _ => none
  | .refused _ => none

theorem test_accept : after { State.reset with schedule := [presenting 0xDB2] } = some ([req 0xDB2], [], true) := by decide

/-- Scenario S2: with DEPTH requests in `Q`, `req_ready` is 0 and the request waits. -/
theorem test_full_queue_does_not_accept :
    after { busy with schedule := [presenting 0x0B7] } = some ([req 0xDB2, req 0x073], [], false) := by decide

/-- Past the end of the schedule the host takes and the block answers and accepts (log entry 5). -/
theorem test_cycle_past_the_schedule : after { State.reset with q := [req 0x073] } =
    some ([], [{ result := 0, err := .edivz }], true) := by decide

theorem test_take_moves_the_head : after { busy with schedule := [{ Cycle.quiet with rspReady := true }] } =
    some ([req 0x073], [{ result := 6, err := .ok }], false) := by decide

/-- Scenario S3: a reset drops what is in flight, whatever is presented at its edge. -/
theorem test_reset_edge : after { busy with schedule := [{ presenting 0x550 with rst := true, rspReady := true }] } =
    some ([], [], false) := by decide

theorem test_kept_request_is_accepted :
    after { State.reset with presented := [req 0xDB2], schedule := [presenting 0xDB2] } = some ([req 0xDB2], [], true) := by
  decide

/-! ### The assembler (spec/30_encoding.md R71, R72) -/

theorem test_assemble_line : assembleText 4 ['d', 'I', 'V', ' ', '0', 'x', 'B', ',', ' ', '1', '3', ' ', ';', ' ', 'q'] =
    .ok [0xDB3] := by decide

theorem test_assemble_refuses_element : assemble 4 (.mul 16 1) = .error .elementTooLarge := by decide

theorem test_assemble_refuses_index : assemble 4 (.exprd 32) = .error .indexTooLarge := by decide

theorem test_assemble_refuses_word : assemble 4 (.req 0x1000) = .error .wordTooLarge := by decide

theorem test_assemble_sqr : assemble 4 (.sqr 11) = .ok 0xBB2 := by decide

/-! ### Witnesses: for each statement with hypotheses, values that meet all of them, at the ends of their ranges -/

theorem test_witness_RequestWordFieldsAreOpThenAThenB : p4.Legal ∧ Request.fits p4 { op := 0xF, a := 15, b := 15 } = true := by
  decide

theorem test_witness_DecodingAnEncodedInstructionGivesItBack :
    p4.Legal ∧ (Instr.div 15 0).wf p4 = true ∧ (Instr.exprd 31).wf p4 = true ∧ (Instr.reserved 0x8).wf p4 = true := by decide

theorem test_witness_EveryRequestWordIsAnInstruction :
    p4.Legal ∧ 0xFFF < 2 ^ (2 * p4.m + 4) ∧ 8 ≤ 0x008 % 2 ^ 4 ∧ 2 ^ (2 * p4.m + 4) ≤ 0x1000 := by decide

theorem test_witness_IgnoredFieldsDoNotAffectTheResponse :
    p4.Legal ∧ 15 < p4.fs ∧ 8 ≤ (0x8#4).toNat ∧ 8 ≤ (0xF#4).toNat := by decide

theorem test_witness_ResponseWordFieldsAreResultThenErr : p4.Legal ∧ ({ result := 15, err := .eillop } : Response).result < p4.fs := by
  decide

theorem test_witness_AssembledFormsDecodeToTheirInstructions :
    p4.Legal ∧ 15 < p4.fs ∧ 31 < 2 * p4.fs ∧ 0xFFF < 2 ^ (2 * p4.m + 4) ∧ p4.fs ≤ 16 ∧ 2 * p4.fs ≤ 32 ∧
      2 ^ (2 * p4.m + 4) ≤ 0x1000 := by decide

/-- The third part of the statement, and the first (the request is issued) and second (it is not). -/
theorem test_witness_StepExecutesTheInstructionTheOldestRequestDecodesTo :
    (State.reset.withFetchWord 12 0xDB2).issues (State.reset.withFetchWord 12 0xDB2).nextCycle = some (req 0xDB2) ∧
      (req 0xDB2).fits p4 = true ∧ decode 4 ((req 0xDB2).toWord 4) = .ok (.mul 11 13) ∧
      busy.issues busy.nextCycle = none ∧ decode State.reset.params.m (0xDB2 % 2 ^ 12) = .ok (.mul 11 13) := by decide

theorem test_witness_MulAnswersTheTableProduct :
    (State.reset.Built ∧ 0 < State.reset.params.fs ∧ 15 < State.reset.params.fs) ∧
      (State.fresh { m := 1, poly := 3, depth := 1 }).Built :=
  ⟨⟨reset_built, by decide, by decide⟩, ⟨by decide, rfl, rfl⟩⟩

theorem test_witness_DivAnswersTheTableQuotientOrDivisionByZero :
    State.reset.Built ∧ 15 < State.reset.params.fs ∧ 0 < State.reset.params.fs ∧ Primitive State.reset.params :=
  ⟨reset_built, by decide, by decide, test_p4_primitive⟩

theorem test_witness_InvAnswersTheTableInverseOrInverseOfZero :
    State.reset.Built ∧ 15 < State.reset.params.fs ∧ 0 < State.reset.params.fs ∧ Primitive State.reset.params :=
  ⟨reset_built, by decide, by decide, test_p4_primitive⟩

theorem test_witness_MulrawAnswersMultiplyRaw : State.reset.params.Legal ∧ 15 < State.reset.params.fs := by decide

theorem test_witness_ExprdAnswersTheExponentEntry :
    State.reset.Built ∧ 31 < 2 * State.reset.params.fs ∧ 14 < State.reset.params.ord := ⟨reset_built, by decide, by decide⟩

theorem test_witness_LogrdAnswersTheLogarithmEntry :
    State.reset.Built ∧ 15 < State.reset.params.fs ∧ Primitive State.reset.params :=
  ⟨reset_built, by decide, test_p4_primitive⟩

theorem test_witness_ReservedOpcodesAnswerIllegalOpcode : 8 ≤ (req 0x008).op.toNat ∧ 8 ≤ (req 0x53F).op.toNat := by decide

theorem test_witness_InstructionsChangeOnlyTheResponse : ∃ t, exec (.mul 11 13) busy = .next t := ⟨_, rfl⟩

theorem test_witness_IndicesOutsideTheRomsFault :
    State.reset.params.Legal ∧ 2 * State.reset.params.fs ≤ 32 ∧ State.reset.params.fs ≤ 16 ∧ (1 : Nat) ≠ 0 := by decide

theorem test_witness_ErrorsAreRaisedExactlyWhereNamed :
    State.reset.Built ∧ (Instr.div 15 0).wf State.reset.params = true ∧ (Instr.inv 0).wf State.reset.params = true ∧
      (Instr.reserved 0xF).wf State.reset.params = true := ⟨reset_built, by decide, by decide, by decide⟩

/-- Two blocks of one field that differ in their depth. -/
theorem test_witness_AnswersDependOnParametersAlone :
    State.reset.Built ∧ (State.fresh { p4 with depth := 1 }).Built ∧
      State.reset.params.m = 4 ∧ (State.fresh { p4 with depth := 1 }).params.m = 4 ∧
      State.reset.params.poly = (State.fresh { p4 with depth := 1 }).params.poly :=
  ⟨reset_built, ⟨by decide, rfl, rfl⟩, rfl, rfl, rfl⟩

theorem test_witness_SourceCallsFailExactlyOnTheirDomainErrors :
    State.reset.Built ∧ 15 < State.reset.params.fs ∧ 0 < State.reset.params.fs := ⟨reset_built, by decide, by decide⟩

theorem test_witness_MultiplyRawStaysBelowFieldSize : p4.Legal ∧ 15 < p4.fs ∧ Nat.log2 15 + 1 ≤ 4 := by decide

theorem test_witness_MultiplyRawIsTheRemainderOfTheProduct : p4.Legal ∧ 15 < p4.fs := by decide

theorem test_witness_GeneratorStepIsOneShiftAndReduction :
    (p4.Legal ∧ 2 ≤ p4.m ∧ 15 < p4.fs) ∧
      (({ m := 1, poly := 2, depth := 1 } : Params).Legal ∧ ({ m := 1, poly := 3, depth := 1 } : Params).Legal) := by decide

/-- A degenerate polynomial is legal, and so is the largest field. -/
theorem test_witness_RomContentsForEveryLegalPolynomial :
    ({ m := 4, poly := 0x10, depth := 1 } : Params).Legal ∧ ({ m := 16, poly := 0x1100B, depth := 1 } : Params).Legal := by
  decide

theorem test_witness_RomsHoldDiscreteLogarithmsUnderPrimitive : p4.Legal ∧ Primitive p4 := ⟨by decide, test_p4_primitive⟩

theorem test_witness_RomsHoldPowersAndLastIterations : ({ m := 4, poly := 0x1F, depth := 1 } : Params).Legal := by decide

theorem test_witness_DoubledTableGivesTheSameEntries : p4.Legal ∧ 14 < p4.ord ∧ 0 < p4.ord := by decide

theorem test_witness_MultiplicationLawsUnderPrimitive :
    State.reset.Built ∧ Primitive State.reset.params ∧ 15 < State.reset.params.fs ∧ 14 < State.reset.params.ord :=
  ⟨reset_built, test_p4_primitive, by decide, by decide⟩

theorem test_witness_DivisionLawsUnderPrimitive :
    State.reset.Built ∧ Primitive State.reset.params ∧ 15 < State.reset.params.fs ∧ (15 : Nat) ≠ 0 :=
  ⟨reset_built, test_p4_primitive, by decide, by decide⟩

theorem test_witness_InverseLawsUnderPrimitive :
    State.reset.Built ∧ Primitive State.reset.params ∧ 15 < State.reset.params.fs ∧ 2 ≤ State.reset.params.m :=
  ⟨reset_built, test_p4_primitive, by decide, by decide⟩

theorem test_witness_TableProductIsTheRawProductUnderPrimitive :
    State.reset.Built ∧ Primitive State.reset.params ∧ 15 < State.reset.params.fs :=
  ⟨reset_built, test_p4_primitive, by decide⟩

theorem test_witness_ElaborationAcceptsExactlyTheLegalParameters :
    ¬ (1 ≤ 0 ∧ 0 ≤ 16) ∧ ¬ (1 ≤ 17 ∧ 17 ≤ 16) ∧ ¬ (2 ^ 4 ≤ 0xF ∧ 0xF < 2 ^ (4 + 1)) ∧ ¬ (2 ^ 4 ≤ 0x20 ∧ 0x20 < 2 ^ (4 + 1)) ∧
      (1 ≤ p4.m ∧ p4.m ≤ 16) ∧ (2 ^ p4.m ≤ p4.poly ∧ p4.poly < 2 ^ (p4.m + 1)) ∧ 1 ≤ p4.depth := by decide

theorem test_elaborate_refuses_depth_zero : elaborate { p4 with depth := 0 } = .error .depth := by decide

theorem test_witness_ConfigurationPortsCarryTheParameters : busy.params.Legal ∧ ∃ t, step busy = .next t :=
  ⟨by decide, _, rfl⟩

/-- Two blocks of one field, and a step. -/
theorem test_witness_RomsAndConfigurationAreConstant :
    (State.reset.Built ∧ (State.fresh { p4 with depth := 1 }).Built) ∧ ∃ t, step busy = .next t :=
  ⟨⟨reset_built, ⟨by decide, rfl, rfl⟩⟩, _, rfl⟩

theorem test_witness_ResetEmptiesTheQueue :
    ({ Cycle.quiet with rst := true } : Cycle).rst = true ∧ ({ presenting 0x550 with rst := true } : Cycle).rst = true := by
  decide

/-- A power-up state that is no state of a block in use: more in flight than DEPTH, and a response of nothing. -/
theorem test_witness_OneResetEdgeBootsFromAnyPowerUpState :
    ∃ s : State, s.Built ∧ s.PortsFit ∧ s.nextCycle.rst = true ∧ ¬ s.q.length ≤ s.params.depth ∧ s.reqReady = true :=
  ⟨{ busy with q := [req 1, req 2, req 3], rsp := some { result := 15, err := .eillop },
               schedule := [{ Cycle.quiet with rst := true }] },
    ⟨by decide, rfl, rfl⟩, by decide, by decide, by decide, by decide⟩

theorem test_witness_EveryStepKeepsTheInvariant : busy.Inv ∧ ∃ t, step busy = .next t := ⟨busy_inv, _, rfl⟩

theorem test_witness_ABlockInUseNeverStops : busy.Inv := busy_inv

/-- A host that presents for the first time, and one that waits with the same request. -/
theorem test_witness_OneCycleTransfersAsTheHandshakeSays :
    (busy.Inv ∧ busy.nextCycle.rst = false ∧ busy.presented.length ≤ 1) ∧
      ∃ s : State, s.Inv ∧ s.nextCycle.rst = false ∧ (∀ x ∈ s.presented, x = s.nextCycle.req) ∧ s.presented.length = 1 :=
  ⟨⟨busy_inv, by decide, by decide⟩,
    { busy with presented := [req 0x0B7], schedule := [presenting 0x0B7] },
    ⟨⟨by decide, rfl, rfl⟩, by decide, by decide, by decide, by decide, by decide⟩, by decide, by decide, by decide⟩

/-- One host presents at once, the other waits a cycle. -/
def eager : State := { State.reset with schedule := [presenting 0xDB2] }
def patient : State := { State.reset with schedule := [Cycle.quiet, presenting 0xDB2] }

theorem test_witness_EveryInterleavingGivesTheSameResponses :
    eager.Inv ∧ patient.Inv ∧ eager.NoReset ∧ patient.NoReset ∧ eager.q = [] ∧ patient.taken = [] ∧
      (∃ t, Sys2Proof.core.run 1 eager = .next t) ∧ (∃ t, Sys2Proof.core.run 2 patient = .next t) ∧
      acceptedIn 1 eager = [req 0xDB2] ∧ acceptedIn 2 patient = [req 0xDB2] :=
  ⟨reset_inv_with (by decide), reset_inv_with (by decide), by decide, by decide, rfl, rfl, ⟨_, rfl⟩, ⟨_, rfl⟩, by decide,
    by decide⟩

theorem test_witness_ResponsesComeOncePerRequestInOrder :
    eager.Inv ∧ eager.NoReset ∧ ∃ t, Sys2Proof.core.run 1 eager = .next t :=
  ⟨reset_inv_with (by decide), by decide, _, rfl⟩

theorem test_witness_ResponsePortsHoldTheOldestRequestsResponse : busy.Inv ∧ busy.rspValid = true := ⟨busy_inv, by decide⟩

/-- The first part, and the second: an empty queue and a cycle in which the block would offer. -/
theorem test_witness_OfferedResponsesAreHeld :
    (busy.rsp = some { result := 6, err := .ok } ∧ busy.nextCycle.rst = false ∧ busy.nextCycle.rspReady = false) ∧
      State.reset.q = [] ∧ State.reset.rsp = none ∧
      ∃ t, (State.reset.beginCycle Cycle.offersOnly).drive Cycle.offersOnly = .next t :=
  ⟨by decide, rfl, rfl, _, rfl⟩

theorem test_witness_LatencyIsAtLeastOneCycle : busy.Inv ∧ ∃ t, step busy = .next t ∧ t.rspValid = true :=
  ⟨busy_inv, _, rfl, rfl⟩

/-- A host that keeps its request, and one that changed it. -/
theorem test_witness_AcceptanceIsOfAPresentedRequest :
    (eager.nextCycle.rst = false ∧ eager.nextCycle.reqValid = true ∧ eager.drivesReady eager.nextCycle = true ∧
      eager.presented.length ≤ 1 ∧ ∃ t, step eager = .next t) ∧
      ∃ s : State, s.nextCycle.rst = false ∧ s.nextCycle.reqValid = true ∧ s.drivesReady s.nextCycle = true ∧
        (∃ x ∈ s.presented, x ≠ s.nextCycle.req) ∧ ∃ t, step s = .next t :=
  ⟨⟨by decide, by decide, by decide, by decide, _, rfl⟩,
    { eager with presented := [req 0x550] }, by decide, by decide, by decide, by decide, _, rfl⟩

/-- Two requests in flight, and two cycles in which the block offers and the host takes. -/
theorem test_witness_EveryRequestInFlightIsAnswered :
    ∃ s : State, s.Inv ∧ (∀ c ∈ s.schedule.take 2, c.rst = false ∧ c.rspReady = true) ∧
      s.q.length = 2 ∧ ((s.schedule.take 2).filter (fun c => c.offer)).length = 2 :=
  ⟨{ busy with schedule := [{ Cycle.offersOnly with rspReady := true }, { Cycle.offersOnly with rspReady := true }] },
    ⟨⟨by decide, rfl, rfl⟩, by decide, by decide, by decide, by decide, by decide⟩, by decide, by decide, by decide⟩

/-- A full queue: the block answers in the first cycle and is willing to accept in the second. -/
theorem test_witness_RequestReadyIsRaisedOnceABlockAnswers :
    ∃ (s : State) (c d : Cycle), s.Inv ∧ s.q.length = s.params.depth ∧
      (∀ e ∈ s.schedule.take 2, e.rst = false ∧ e.rspReady = true) ∧ s.schedule[0]? = some c ∧ c.offer = true ∧
      s.schedule[1]? = some d ∧ d.ready = true :=
  ⟨{ busy with schedule := [{ Cycle.offersOnly with rspReady := true }, { Cycle.quiet with rspReady := true, ready := true }] },
    _, _, ⟨⟨by decide, rfl, rfl⟩, by decide, by decide, by decide, by decide, by decide⟩, by decide, by decide, rfl,
    by decide, rfl, by decide⟩

/-- The cycle is one respond: the block answers, and the queue is full. -/
theorem test_witness_EveryCycleIsASequenceOfTransactions :
    busy.Inv ∧ (∃ t, step busy = .next t) ∧
      State.actionsNext { busy with schedule := [{ presenting 0x0B7 with rspReady := true }] } = [.respond] ∧
      State.actionsNext { busy with q := [req 0xDB2], schedule := [{ presenting 0x0B7 with rspReady := true }] } =
        [.respond, .accept (req 0x0B7)] ∧
      State.actionsNext { busy with schedule := [{ presenting 0x0B7 with rst := true }] } = [.reset] :=
  ⟨busy_inv, ⟨_, rfl⟩, by decide, by decide, by decide⟩

/-- One request in flight, room for one more: each of the three transactions is enabled. -/
theorem test_witness_EveryTransactionIsSomeCycle :
    ∃ s : State, s.Inv ∧ s.rsp = none ∧ s.presented = [] ∧
      Transaction s.params (.accept (req 0xDB2)) (s.q, s.taken) (s.q ++ [req 0xDB2], s.taken) ∧
      Transaction s.params .respond (s.q, s.taken) ([], [{ result := 0, err := .edivz }]) ∧
      Transaction s.params .reset (s.q, s.taken) ([], []) :=
  ⟨{ State.reset with q := [req 0x073] },
    ⟨⟨by decide, rfl, rfl⟩, by decide, by decide, by decide, by decide, by decide⟩, rfl, rfl,
    .accept _ _ _ (by decide) (by decide), .respond _ _ _ _ (by decide), .reset _ _⟩

/-- An infinite run of willing cycles: the one request in flight is answered in the first. -/
def fairRun : Nat → State
  | 0 => { State.reset with q := [req 0xDB2] }
  | n + 1 => { State.reset with taken := [{ result := 6, err := .ok }], reqReady := true, tick := n + 1 }

theorem fairRun_runs : Runs (fun _ => Cycle.willing) fairRun := by
  intro n
  cases n <;> rfl

theorem test_witness_WeaklyFairRunsAnswerEveryRequest :
    (fairRun 0).Inv ∧ Cycle.willing.req.fits (fairRun 0).params = true ∧ Runs (fun _ => Cycle.willing) fairRun ∧
      WeaklyFair (fun _ => Cycle.willing) fairRun ∧ Cycle.willing.rst = false ∧ Cycle.willing.rspReady = true where
  left := ⟨⟨by decide, rfl, rfl⟩, by decide, by decide, by decide, by decide, by decide⟩
  right := ⟨by decide, fairRun_runs,
    { respond := fun n h => absurd rfl (h (n + 1) (Nat.le_succ n)).2.2
      accept := fun n _ => ⟨n, Nat.le_refl n, by cases n <;> rfl⟩ }, rfl, rfl⟩

/-- No schedule is left in any state of that run, so it is a run of `step`. -/
theorem test_witness_EveryRunOfTheMachineIsWeaklyFair : ∀ n, step (fairRun n) = .next (fairRun (n + 1)) := by
  intro n
  cases n <;> rfl

theorem test_witness_EveryRequestIsAnsweredOnceTheScheduleEnds : busy.Inv ∧ busy.NoReset ∧ busy.q.length = 2 :=
  ⟨busy_inv, by decide, rfl⟩

end Sys2Proof.Tests
end

section
/-! PROOFS. The statements of spec/00_scope.md: elements as polynomials (R2), the parameters elaboration accepts (R6, R7),
and the LATENCY of a response (R9). -/

namespace Sys2Proof

/-! ### Elements as polynomials over GF(2) -/

theorem coeff_polyOf (n i : Nat) : (polyOf n).coeff i = if n.testBit i then 1 else 0 := by
  have hterm (j : Nat) : (if n.testBit j then Polynomial.X ^ j else 0 : Polynomial (ZMod 2)).coeff i =
      if i = j then (if n.testBit j then 1 else 0) else 0 := by
    split <;> simp [Polynomial.coeff_X_pow]
  simp only [polyOf, Polynomial.finsetSum_coeff, hterm, Finset.sum_ite_eq, Finset.mem_range]
  split
  · rfl
  · next h =>
    have : n < 2 ^ i := Nat.lt_trans (by omega) Nat.lt_two_pow_self
    simp [Nat.testBit_lt_two_pow this]

/-- Addition in GF(2) is exclusive or, bit by bit. -/
theorem polyOf_xor (a b : Nat) : polyOf (a ^^^ b) = polyOf a + polyOf b := by
  ext i
  simp only [Polynomial.coeff_add, coeff_polyOf, Nat.testBit_xor]
  cases a.testBit i <;> cases b.testBit i <;> decide

namespace Machine

@[simp] theorem resultOf_add (a b : Nat) (s : State) : resultOf (.add a b) s = a ^^^ b := rfl

@[simp] theorem resultOf_sub (a b : Nat) (s : State) : resultOf (.sub a b) s = a ^^^ b := rfl

/-- Settles O26: coefficient by coefficient, and addition is subtraction in characteristic 2. -/
theorem exclusiveOrAddsPolynomials : Obligations.ExclusiveOrAddsPolynomials := by
  intro s a b
  refine ⟨coeff_polyOf a, ?_, ?_⟩
  · rw [resultOf_add, polyOf_xor]
  · rw [resultOf_sub, polyOf_xor, CharTwo.sub_eq_add]

/-! ### Elaboration -/

theorem elaborate_of_degree {p : Params} (h : ¬ (1 ≤ p.m ∧ p.m ≤ Params.mMax)) : elaborate p = .error .degree :=
  if_pos h

/-- A PRIM_POLY of the wrong shape is refused, if not already for its M. -/
theorem elaborate_of_polynomial {p : Params} (h : ¬ (2 ^ p.m ≤ p.poly ∧ p.poly < 2 ^ (p.m + 1))) :
    ∃ e, elaborate p = .error e := by
  by_cases hm : 1 ≤ p.m ∧ p.m ≤ Params.mMax
  · exact ⟨.polynomial, by rw [elaborate, if_neg (not_not_intro hm), if_pos h]⟩
  · exact ⟨.degree, elaborate_of_degree hm⟩

theorem elaborate_of_legal {p : Params} (h : p.Legal) : elaborate p = .ok (State.fresh p) := by
  obtain ⟨hm, hmax, hlo, hhi, hd⟩ := h
  rw [elaborate, if_neg (not_not_intro ⟨hm, hmax⟩), if_neg (not_not_intro ⟨hlo, hhi⟩), if_neg (by omega)]

theorem State.fresh_built {p : Params} (h : p.Legal) : (State.fresh p).Built := ⟨h, rfl, rfl⟩

/-- A fresh block of legal parameters is one in use: nothing is in flight, presented or scheduled. -/
theorem State.fresh_inv {p : Params} (h : p.Legal) : (State.fresh p).Inv where
  built := State.fresh_built h
  depth := Nat.zero_le _
  queueFits := List.forall_mem_nil _
  presentedFits := List.forall_mem_nil _
  portsFit := List.forall_mem_nil _
  offered := .inl rfl

/-- Settles O37, by the branches of `elaborate`. -/
theorem elaborationAcceptsExactlyTheLegalParameters : Obligations.ElaborationAcceptsExactlyTheLegalParameters := by
  intro p
  refine ⟨fun hm => ⟨_, elaborate_of_degree hm⟩, elaborate_of_polynomial, fun hm hp hd => ?_⟩
  have legal : p.Legal := ⟨hm.1, hm.2, hp.1, hp.2, hd⟩
  exact ⟨elaborate_of_legal legal, State.fresh_inv legal⟩

/-! ### Which request a response on offer belongs to -/

/-- The block takes nothing from `Q` and adds nothing to it before the edge. -/
theorem State.drive_q {s u : State} {c : Cycle} (h : s.drive c = .next u) : u.q = s.q := by
  obtain ⟨r, -, hx⟩ | ⟨-, rfl⟩ := State.drive_next h
  · obtain ⟨x, e, rfl⟩ := exec_next hx
    rfl
  · rfl

/-- In the middle of a cycle a response is on offer only if it was before, or if the block issued the head of `Q`. -/
theorem State.drive_rsp {s u : State} {c : Cycle} (h : s.drive c = .next u) :
    u.rsp = s.rsp ∨ ∃ r, s.q.head? = some r := by
  obtain ⟨r, hr, -⟩ | ⟨-, rfl⟩ := State.drive_next h
  · obtain ⟨-, -, -, hhead⟩ := State.issues_eq_some hr
    exact .inr ⟨r, hhead⟩
  · exact .inl rfl

@[simp] theorem State.takeResponse_rsp (s : State) : s.takeResponse.rsp = none := by
  unfold State.takeResponse
  split
  · rfl
  · assumption

/-- A response that is on offer after the edge was not taken at it, and the block was not reset. -/
theorem State.edge_of_rspValid {s : State} {c : Cycle} (h : (s.edge c).rspValid = true) :
    s.edge c = s.requestEdge c ∧ s.rspValid = true := by
  cases hrst : c.rst with
  | true => simp [State.edge_of_rst s hrst, State.rspValid] at h
  | false =>
    rw [State.edge_of_not_rst s hrst] at h ⊢
    cases hready : c.rspReady with
    | true => simp [State.rspValid, State.responseEdge, hready] at h
    | false =>
      have hresp : s.responseEdge c = s := by simp [State.responseEdge, hready]
      rw [hresp] at h ⊢
      exact ⟨rfl, by simpa [State.rspValid] using h⟩

/-- An acceptance joins the tail: the oldest request stays the oldest. -/
theorem State.requestEdge_head {s : State} {r : Request} (c : Cycle) (h : s.q.head? = some r) :
    (s.requestEdge c).q.head? = some r := by
  unfold State.requestEdge
  split
  · split
    · simp [h]
    · exact h
  · exact h

/-- A block in use offers a response only while a request is in flight. -/
theorem State.Inv.head_of_rspValid {s : State} (hs : s.Inv) (h : s.rspValid = true) : ∃ r, s.q.head? = some r := by
  obtain hnone | hhead := hs.offered
  · simp [State.rspValid, hnone] at h
  · cases hq : s.q.head? with
    | none => simp [State.rspValid, hhead, hq] at h
    | some r => exact ⟨r, rfl⟩

/-- Settles O50: the response survived the edge, so it was on offer before it, and then it is the head's. -/
theorem latencyIsAtLeastOneCycle : Obligations.LatencyIsAtLeastOneCycle := by
  intro s t hs hstep hvalid
  obtain ⟨u, hu, rfl⟩ := step_next hstep
  obtain ⟨hedge, huvalid⟩ := State.edge_of_rspValid hvalid
  have huq : u.q = s.q := by simpa using State.drive_q hu
  have hhead : ∃ r, s.q.head? = some r := by
    obtain hrsp | hissued := State.drive_rsp hu
    · rw [State.rspValid, hrsp] at huvalid
      exact hs.head_of_rspValid huvalid
    · exact hissued
  obtain ⟨r, hr⟩ := hhead
  exact ⟨r, hr, hedge ▸ State.requestEdge_head _ (huq ▸ hr)⟩

end Machine

end Sys2Proof
end

section
/-! PROOFS. What the statements of spec/10_state.md need of the tables: the construction does not read DEPTH (R27), and
every entry is an element (R25, R26). -/

namespace Sys2Proof

theorem Params.eq_with_depth {p q : Params} (hm : p.m = q.m) (hpoly : p.poly = q.poly) :
    p = { q with depth := p.depth } := by
  rw [← hm, ← hpoly]

namespace Machine

/-! ### The depth of the queue is no input of the construction -/

theorem mulLoop_with_depth (p : Params) (d fuel a b result : Nat) :
    mulLoop { p with depth := d } fuel a b result = mulLoop p fuel a b result := by
  induction fuel generalizing a b result with
  | zero => rfl
  | succ fuel ih => rw [mulLoop, mulLoop, ih]; rfl

theorem mulRaw_with_depth (p : Params) (d a b : Nat) : mulRaw { p with depth := d } a b = mulRaw p a b :=
  mulLoop_with_depth p d _ a b 0

theorem Tables.after_with_depth (p : Params) (d n : Nat) : Tables.after { p with depth := d } n = Tables.after p n := by
  induction n with
  | zero => rfl
  | succ n ih => simp only [Tables.after, ih, Tables.iterate, mulRaw_with_depth, Params.fs]

theorem expRom_with_depth (p : Params) (d : Nat) : expRom { p with depth := d } = expRom p :=
  congrArg Tables.exp (Tables.after_with_depth p d p.ord)

theorem logRom_with_depth (p : Params) (d : Nat) : logRom { p with depth := d } = logRom p :=
  congrArg Tables.log (Tables.after_with_depth p d p.ord)

/-! ### Every product and every table entry is an element -/

/-- The shifted `a` has at most bit M too many, and then PRIM_POLY, whose highest bit that is, clears it. -/
theorem mulAdvance_lt {p : Params} (hp : p.Legal) {a : Nat} (ha : a < p.fs) : mulAdvance p a < p.fs := by
  obtain ⟨-, -, hlo, hhi, -⟩ := hp
  have hshift : a <<< 1 < 2 ^ (p.m + 1) := by
    rw [Params.fs] at ha
    rw [Nat.shiftLeft_eq, Nat.pow_succ]
    omega
  have clear {x : Nat} (hx : x < 2 ^ (p.m + 1)) (hbit : x.testBit p.m = false) : x < p.fs := by
    by_contra hle
    simp [Nat.testBit_of_two_pow_le_and_two_pow_add_one_gt (Nat.le_of_not_lt hle) hx] at hbit
  have htop : (a <<< 1) &&& p.fs ≠ 0 ↔ (a <<< 1).testBit p.m = true := by
    rw [Params.fs, Nat.and_two_pow]
    cases (a <<< 1).testBit p.m <;> simp
  rw [mulAdvance]
  split
  · next h =>
    refine clear (Nat.xor_lt_two_pow hshift hhi) ?_
    rw [Nat.testBit_xor, htop.1 h, Nat.testBit_of_two_pow_le_and_two_pow_add_one_gt hlo hhi, Bool.xor_self]
  · next h => exact clear hshift (Bool.eq_false_iff.2 fun hbit => h (htop.2 hbit))

theorem mulLoop_lt {p : Params} (hp : p.Legal) (fuel : Nat) {a result : Nat} (b : Nat) (ha : a < p.fs)
    (hresult : result < p.fs) : mulLoop p fuel a b result < p.fs := by
  induction fuel generalizing a b result with
  | zero => exact hresult
  | succ fuel ih =>
    rw [mulLoop]
    split
    · exact hresult
    · refine ih _ (mulAdvance_lt hp ha) ?_
      split
      · exact Nat.xor_lt_two_pow hresult ha
      · exact hresult

theorem mulRaw_lt {p : Params} (hp : p.Legal) {a : Nat} (b : Nat) (ha : a < p.fs) : mulRaw p a b < p.fs :=
  mulLoop_lt hp _ b ha p.fs_pos

theorem power_lt {p : Params} (hp : p.Legal) (i : Nat) : power p i < p.fs := by
  induction i with
  | zero => exact Params.two_le_fs hp.1
  | succ i ih => rw [power_succ]; exact mulRaw_lt hp _ ih

theorem expRom_read_lt {p : Params} (hp : p.Legal) (k : Nat) : (expRom p).read k < p.fs := by
  rw [expRom_read]
  split
  · exact power_lt hp _
  · split
    · exact power_lt hp _
    · exact p.fs_pos

/-- An entry of `LOG` is the number of an iteration, of which there are ORD. -/
theorem logRom_read_lt {p : Params} (hp : p.Legal) (y : Nat) : (logRom p).read y < p.ord := by
  have written (n : Nat) : (Tables.after p n).log.read y < max n 1 := by
    induction n with
    | zero => exact Nat.one_pos
    | succ n ih => rw [Tables.after_log_read_succ]; split <;> omega
  have := written p.ord
  have := Params.ord_pos hp.1
  rw [logRom]
  omega

end Machine

end Sys2Proof
end

section
/-! PROOFS. The answer to an instruction: what it depends on (spec/20_memory.md R49), its width (spec/30_encoding.md R64),
and where there is none. -/

namespace Sys2Proof

/-- Every operand of a decoded request fits its field (spec/30_encoding.md R65, R69). -/
theorem Request.decode_wf {p : Params} {r : Request} (h : r.fits p = true) : (r.decode p.m).wf p = true := by
  obtain ⟨ha, hb⟩ : p.isElement r.a = true ∧ p.isElement r.b = true := by simpa [Request.fits] using h
  have hindex : exprdIndex p.m r.a r.b < 2 * p.fs := by
    have hbit : r.b &&& 1 ≤ 1 := Nat.and_le_right
    have hmul : p.fs * (r.b &&& 1) ≤ p.fs * 1 := Nat.mul_le_mul_left _ hbit
    have := Params.isElement_iff.1 ha
    rw [exprdIndex, ← Params.fs]
    omega
  unfold Request.decode
  split
  case h_9 => simp only [Instr.wf, decide_eq_true_eq, imp_false] at *; omega
  all_goals simp [Instr.wf, ha, hb, hindex]

namespace Machine

/-! ### Reads outside the tables -/

theorem State.readExp_of_le {s : State} {i : Nat} (h : 2 * s.params.fs ≤ i) (k : Nat → Result) :
    s.readExp i k = .fault (.expIndexOutOfRange i) := if_neg (Nat.not_lt.2 h)

theorem State.readLog_of_le {s : State} {i : Nat} (h : s.params.fs ≤ i) (k : Nat → Result) :
    s.readLog i k = .fault (.logIndexOutOfRange i) := if_neg (Nat.not_lt.2 h)

/-- Settles O20: an operand from FS on is not 0, so its `LOG` entry is the first thing read. -/
theorem indicesOutsideTheRomsFault : Obligations.IndicesOutsideTheRomsFault := by
  intro s k a _
  have nonzero (hk : s.params.fs ≤ k) : k ≠ 0 := Nat.ne_of_gt (Nat.lt_of_lt_of_le s.params.fs_pos hk)
  refine ⟨fun hk => ?_, fun hk => ?_, fun hk => ?_, fun hk ha => ?_, fun hk ha => ?_⟩
  · rw [exec, execExprd, State.readExp_of_le hk]
  · rw [exec, execLogrd, State.readLog_of_le hk]
  · rw [exec, execInv, if_neg (nonzero hk), State.readLog_of_le hk]
  · rw [exec, execMul, if_neg (by simp [nonzero hk, ha]), State.readLog_of_le hk]
  · rw [exec, execDiv, if_neg ha, if_neg (nonzero hk), State.readLog_of_le hk]

/-! ### An instruction and its answer -/

/-- Settles O19: every instruction that runs offers one response. -/
theorem instructionsChangeOnlyTheResponse : Obligations.InstructionsChangeOnlyTheResponse := by
  intro i s t h
  obtain ⟨x, e, rfl⟩ := exec_next h
  simp

/-- The response an outcome puts on offer; `answer` is that of `exec`. -/
def responseOf (r : Result) : Option Response :=
  match r with
  | .next t => t.rsp
  | .fault _ => none
  | .refused _ => none

theorem answer_eq_responseOf (i : Instr) (s : State) : answer i s = responseOf (exec i s) := rfl

/-- The answer is all an instruction adds to the state. -/
theorem exec_eq_next_iff {i : Instr} {s t : State} :
    exec i s = .next t ↔ ∃ y, answer i s = some y ∧ t = { s with rsp := some y } := by
  constructor
  · intro h
    obtain ⟨x, e, rfl⟩ := exec_next h
    exact ⟨⟨x, e⟩, by rw [answer_eq_responseOf, h]; rfl, rfl⟩
  · rintro ⟨y, hy, rfl⟩
    cases hx : exec i s with
    | next t =>
      obtain ⟨x, e, rfl⟩ := exec_next hx
      rw [answer_eq_responseOf, hx] at hy
      cases hy
      rfl
    | fault f => simp [answer_eq_responseOf, hx, responseOf] at hy
    | refused f => simp [answer_eq_responseOf, hx, responseOf] at hy

/-! ### The answer depends on the field and the tables -/

/-- What the meaning of an instruction reads of a state: the field and the two tables. -/
structure State.SameField (s t : State) : Prop where
  m : s.params.m = t.params.m
  poly : s.params.poly = t.params.poly
  exp : s.exp = t.exp
  log : s.log = t.log

section
variable {s t : State} (h : s.SameField t)
include h

theorem State.SameField.fs_eq : s.params.fs = t.params.fs := by rw [Params.fs, Params.fs, h.m]

theorem State.SameField.ord_eq : s.params.ord = t.params.ord := by rw [Params.ord, Params.ord, h.fs_eq]

theorem State.SameField.mulRaw_eq (a b : Nat) : mulRaw s.params a b = mulRaw t.params a b := by
  rw [Params.eq_with_depth h.m h.poly, mulRaw_with_depth]

theorem State.SameField.responseOf_readExp (i : Nat) {k k' : Nat → Result}
    (hk : ∀ y, responseOf (k y) = responseOf (k' y)) :
    responseOf (s.readExp i k) = responseOf (t.readExp i k') := by
  rw [State.readExp, State.readExp, h.fs_eq, h.exp]
  split
  · exact hk _
  · rfl

theorem State.SameField.responseOf_readLog (i : Nat) {k k' : Nat → Result}
    (hk : ∀ y, responseOf (k y) = responseOf (k' y)) :
    responseOf (s.readLog i k) = responseOf (t.readLog i k') := by
  rw [State.readLog, State.readLog, h.fs_eq, h.log]
  split
  · exact hk _
  · rfl

/-- Whatever else two states hold, with the same field and tables they answer alike (spec/20_memory.md R49). -/
theorem State.SameField.answer_eq (i : Instr) : answer i s = answer i t := by
  rw [answer_eq_responseOf, answer_eq_responseOf]
  cases i with
  | add a b => rfl
  | sub a b => rfl
  | mul a b =>
    rw [exec, exec, execMul, execMul]
    split
    · rfl
    · refine h.responseOf_readLog _ fun la => h.responseOf_readLog _ fun lb => ?_
      rw [mulIndex, mulIndex, h.ord_eq]
      exact h.responseOf_readExp _ fun y => rfl
  | div a b =>
    rw [exec, exec, execDiv, execDiv]
    split
    · rfl
    · split
      · rfl
      · refine h.responseOf_readLog _ fun la => h.responseOf_readLog _ fun lb => ?_
        rw [divIndex, divIndex, h.ord_eq]
        exact h.responseOf_readExp _ fun y => rfl
  | inv a =>
    rw [exec, exec, execInv, execInv]
    split
    · rfl
    · refine h.responseOf_readLog _ fun la => ?_
      rw [invIndex, invIndex, h.ord_eq]
      exact h.responseOf_readExp _ fun y => rfl
  | mulraw a b =>
    rw [exec, exec, execMulraw, execMulraw, h.mulRaw_eq]
    rfl
  | exprd idx =>
    rw [exec, exec, execExprd, execExprd]
    exact h.responseOf_readExp _ fun y => rfl
  | logrd a =>
    rw [exec, exec, execLogrd, execLogrd]
    exact h.responseOf_readLog _ fun y => rfl
  | reserved op => rfl

end

theorem State.Built.sameField {s t : State} (hs : s.Built) (ht : t.Built) (hm : s.params.m = t.params.m)
    (hpoly : s.params.poly = t.params.poly) : s.SameField t where
  m := hm
  poly := hpoly
  exp := by rw [hs.exp_eq, ht.exp_eq, Params.eq_with_depth hm hpoly, expRom_with_depth]
  log := by rw [hs.log_eq, ht.log_eq, Params.eq_with_depth hm hpoly, logRom_with_depth]

/-- A built block answers a request as a freshly elaborated one does, whatever it holds. -/
theorem State.Built.answer_eq_eval {s : State} (hs : s.Built) (r : Request) :
    answer (r.decode s.params.m) s = eval s.params r :=
  (hs.sameField (State.fresh_built hs.legal) rfl rfl).answer_eq _

/-! ### The result of a request is an element -/

theorem State.respond_result_lt {s t : State} {x n : Nat} {e : ErrCode} {y : Response} (hx : x < n)
    (h : s.respond x e = .next t) (hy : t.rsp = some y) : y.result < n := by
  cases h
  cases hy
  exact hx

/-- spec/30_encoding.md R64: operands that fit give a result that fits. -/
theorem exec_result_lt {i : Instr} {s t : State} {y : Response} (hs : s.Built) (hi : i.wf s.params = true)
    (h : exec i s = .next t) (hy : t.rsp = some y) : y.result < s.params.fs := by
  have hexp (k : Nat) : s.exp.read k < s.params.fs := hs.exp_eq ▸ expRom_read_lt hs.legal k
  have hlog (k : Nat) : s.log.read k < s.params.fs := by
    rw [hs.log_eq]
    exact Nat.lt_of_lt_of_le (logRom_read_lt hs.legal k) (Nat.sub_le _ _)
  have hzero : 0 < s.params.fs := s.params.fs_pos
  cases i with
  | add a b =>
    obtain ⟨ha, hb⟩ := Laws.EncodedFieldsFit.elements_lt hi
    exact State.respond_result_lt (Nat.xor_lt_two_pow ha hb) h hy
  | sub a b =>
    obtain ⟨ha, hb⟩ := Laws.EncodedFieldsFit.elements_lt hi
    exact State.respond_result_lt (Nat.xor_lt_two_pow ha hb) h hy
  | mul a b =>
    rw [exec, execMul] at h
    split at h
    · exact State.respond_result_lt hzero h hy
    · exact State.respond_result_lt (hexp _) (State.readExp_next (State.readLog_next (State.readLog_next h).2).2).2 hy
  | div a b =>
    rw [exec, execDiv] at h
    split at h
    · exact State.respond_result_lt hzero h hy
    · split at h
      · exact State.respond_result_lt hzero h hy
      · exact State.respond_result_lt (hexp _) (State.readExp_next (State.readLog_next (State.readLog_next h).2).2).2 hy
  | inv a =>
    rw [exec, execInv] at h
    split at h
    · exact State.respond_result_lt hzero h hy
    · exact State.respond_result_lt (hexp _) (State.readExp_next (State.readLog_next h).2).2 hy
  | mulraw a b =>
    obtain ⟨ha, -⟩ := Laws.EncodedFieldsFit.elements_lt hi
    exact State.respond_result_lt (mulRaw_lt hs.legal b ha) h hy
  | exprd idx =>
    rw [exec, execExprd] at h
    exact State.respond_result_lt (hexp _) (State.readExp_next h).2 hy
  | logrd a =>
    rw [exec, execLogrd] at h
    exact State.respond_result_lt (hlog _) (State.readLog_next h).2 hy
  | reserved op => exact State.respond_result_lt hzero h hy

theorem eval_result_lt {p : Params} {r : Request} {y : Response} (hp : p.Legal) (hr : r.fits p = true)
    (h : eval p r = some y) : y.result < p.fs :=
  exec_result_lt (State.fresh_built hp) (Request.decode_wf hr) (exec_eq_next_iff.2 ⟨y, h, rfl⟩) rfl

end Machine

end Sys2Proof
end

section
/-! PROOFS. The statements of spec/10_state.md. -/

namespace Sys2Proof.Machine

/-! ### What a cycle leaves alone -/

/-- Before the edge the block changes at most the response on offer. -/
theorem State.drive_frame {s u : State} {c : Cycle} (h : s.drive c = .next u) : ∃ o, u = { s with rsp := o } := by
  obtain ⟨r, -, hx⟩ | ⟨-, rfl⟩ := State.drive_next h
  · obtain ⟨y, -, rfl⟩ := exec_eq_next_iff.1 hx
    exact ⟨some y, rfl⟩
  · exact ⟨u.rsp, rfl⟩

theorem State.inCycle_frame {s t : State} {c : Cycle} (h : s.inCycle c = .next t) :
    t.params = s.params ∧ t.exp = s.exp ∧ t.log = s.log := by
  obtain ⟨u, hu, rfl⟩ := State.inCycle_next h
  obtain ⟨o, rfl⟩ := State.drive_frame hu
  simp

/-- Settles O39: the construction does not read DEPTH, and no part of a cycle writes a table or a parameter. -/
theorem romsAndConfigurationAreConstant : Obligations.RomsAndConfigurationAreConstant := by
  refine ⟨fun s t hs ht hm hpoly => ?_, fun s t hstep => State.inCycle_frame hstep⟩
  have same := hs.sameField ht hm hpoly
  exact ⟨same.exp, same.log⟩

/-- Settles O38: M and PRIM_POLY of a legal block fit the ports' widths. -/
theorem configurationPortsCarryTheParameters : Obligations.ConfigurationPortsCarryTheParameters := by
  intro s t hp
  obtain ⟨-, hmax, hlo, hhi, -⟩ := hp
  have hm : s.params.m < 2 ^ 5 := Nat.lt_of_le_of_lt hmax (by decide)
  refine ⟨?_, ?_, ?_, fun hstep => (State.inCycle_frame hstep).1⟩
  · rw [State.cfgM, BitVec.toNat_ofNat, Nat.mod_eq_of_lt hm]
  · rw [State.cfgPoly, BitVec.toNat_ofNat, Nat.mod_eq_of_lt hhi]
  · rw [State.cfgPoly, BitVec.getLsbD_ofNat, Nat.testBit_of_two_pow_le_and_two_pow_add_one_gt hlo hhi]
    simp

/-- Settles O40: reset is a fresh block of legal parameters. -/
theorem invariantHoldsAtReset : Obligations.InvariantHoldsAtReset :=
  ⟨State.fresh_inv (by decide), rfl, rfl, rfl, rfl, rfl⟩

/-! ### The response ports -/

theorem State.Inv.rsp_eq_eval {s : State} (hs : s.Inv) {y : Response} (hy : s.rsp = some y) :
    ∃ r rest, s.q = r :: rest ∧ eval s.params r = some y := by
  have hhead := hs.offered.resolve_left (by simp [hy])
  cases hq : s.q with
  | nil => simp [hy, hq] at hhead
  | cons r rest => exact ⟨r, rest, rfl, by simpa [hy, hq] using hhead.symm⟩

/-- Settles O48: the offer is the response of the head of `Q`, whose result fits the M bits of `rsp_result`. -/
theorem responsePortsHoldTheOldestRequestsResponse : Obligations.ResponsePortsHoldTheOldestRequestsResponse := by
  intro s hs
  refine ⟨Iff.rfl, fun hvalid => ?_⟩
  obtain ⟨y, hy⟩ := Option.isSome_iff_exists.1 hvalid
  obtain ⟨r, rest, hq, hr⟩ := hs.rsp_eq_eval hy
  have hlt : y.result < 2 ^ s.params.m := eval_result_lt hs.built.legal (hs.queueFits r (by simp [hq])) hr
  refine ⟨r, y, by simp [hq], hr, ?_, ?_⟩
  · rw [State.rspResult, hy]
    exact Nat.mod_eq_of_lt hlt
  · rw [State.rspErr, hy]

/-! ### What a cycle does to a block in use -/

@[simp] theorem State.beginCycle_offersIn (s : State) (c d : Cycle) : (s.beginCycle c).offersIn d = s.offersIn d := rfl

theorem State.Inv.beginCycle {s : State} (hs : s.Inv) (c : Cycle) : (s.beginCycle c).Inv where
  built := ⟨hs.built.legal, hs.built.exp_eq, hs.built.log_eq⟩
  depth := hs.depth
  queueFits := hs.queueFits
  presentedFits := hs.presentedFits
  portsFit d hd := hs.portsFit d (List.mem_of_mem_tail hd)
  offered := hs.offered

/-- Everything a block in use can do before the edge: the oldest request's response is on offer then, whether it was
before or not; or none is, and nothing changed. -/
theorem State.Inv.drive_next {s u : State} {c : Cycle} (hs : s.Inv) (h : s.drive c = .next u) :
    (∃ r rest y, s.q = r :: rest ∧ eval s.params r = some y ∧ s.offersIn c = true ∧ u = { s with rsp := some y }) ∨
      (s.offersIn c = false ∧ s.rsp = none ∧ u = s) := by
  obtain ⟨r, hr, hx⟩ | ⟨hnone, rfl⟩ := State.drive_next h
  · obtain ⟨hrst, hoffer, -, hhead⟩ := State.issues_eq_some hr
    obtain ⟨rest, hq⟩ := List.head?_eq_some_iff.1 hhead
    obtain ⟨y, hy, rfl⟩ := exec_eq_next_iff.1 hx
    exact .inl ⟨r, rest, y, hq, hs.built.answer_eq_eval r ▸ hy, by simp [State.offersIn, hrst, hoffer, hq], rfl⟩
  · cases hy : u.rsp with
    | some y =>
      obtain ⟨r, rest, hq, hr⟩ := hs.rsp_eq_eval hy
      exact .inl ⟨r, rest, y, hq, hr, by simp [State.offersIn, hy], by rw [← hy]⟩
    | none =>
      refine .inr ⟨?_, rfl, rfl⟩
      cases hq : u.q with
      | nil => simp [State.offersIn, hy, hq]
      | cons r rest => simpa [State.issues, State.offersIn, hy, hq] using hnone

theorem State.Inv.drive {s u : State} {c : Cycle} (hs : s.Inv) (h : s.drive c = .next u) : u.Inv := by
  obtain ⟨r, rest, y, hq, hr, -, rfl⟩ | ⟨-, -, rfl⟩ := hs.drive_next h
  · exact { hs with
      built := ⟨hs.built.legal, hs.built.exp_eq, hs.built.log_eq⟩
      offered := .inr (by simp [hq, hr]) }
  · exact hs

theorem State.Inv.resetEdge {s : State} (hs : s.Inv) : s.resetEdge.Inv where
  built := ⟨hs.built.legal, hs.built.exp_eq, hs.built.log_eq⟩
  depth := Nat.zero_le _
  queueFits := List.forall_mem_nil _
  presentedFits := List.forall_mem_nil _
  portsFit := hs.portsFit
  offered := .inl rfl

theorem State.responseEdge_q_length_le (s : State) (c : Cycle) : (s.responseEdge c).q.length ≤ s.q.length := by
  rw [State.responseEdge]
  split
  · rw [State.takeResponse]
    split
    · simp
    · exact Nat.le_refl _
  · exact Nat.le_refl _

theorem State.Inv.takeResponse {s : State} (hs : s.Inv) : s.takeResponse.Inv := by
  cases hy : s.rsp with
  | none => rwa [State.takeResponse_of_none hy]
  | some y =>
    rw [State.takeResponse_of_some hy]
    exact {
      built := ⟨hs.built.legal, hs.built.exp_eq, hs.built.log_eq⟩
      depth := Nat.le_trans (by simp) hs.depth
      queueFits := fun r hr => hs.queueFits r (List.mem_of_mem_tail hr)
      presentedFits := hs.presentedFits
      portsFit := hs.portsFit
      offered := .inl rfl }

theorem State.Inv.responseEdge {s : State} (hs : s.Inv) (c : Cycle) : (s.responseEdge c).Inv := by
  rw [State.responseEdge]
  split
  · exact hs.takeResponse
  · exact hs

theorem State.Inv.withPresented_fits {s : State} (hs : s.Inv) {r x : Request} (hr : r.fits s.params = true)
    (hx : x ∈ s.withPresented r) : x.fits s.params = true := by
  obtain hx | rfl := State.mem_withPresented hx
  · exact hs.presentedFits x hx
  · exact hr

/-- While a response is on offer its request is before the accepted one, and stays the oldest. -/
theorem State.Inv.accept {s : State} (hs : s.Inv) {r : Request} (hr : r.fits s.params = true)
    (hroom : s.q.length < s.params.depth) : (s.accept r).Inv where
  built := ⟨hs.built.legal, hs.built.exp_eq, hs.built.log_eq⟩
  depth := by simpa using hroom
  queueFits x hx := by
    obtain hx | rfl : x ∈ s.q ∨ x = r := by simpa using hx
    · exact hs.queueFits x hx
    · exact hr
  presentedFits := List.forall_mem_nil _
  portsFit := hs.portsFit
  offered := by
    cases hy : s.rsp with
    | none => exact .inl hy
    | some y =>
      obtain ⟨head, rest, hq, hhead⟩ := hs.rsp_eq_eval hy
      exact .inr (by simp [hy, hq, hhead])

theorem State.Inv.requestEdge {s : State} {c : Cycle} (hs : s.Inv) (hr : c.req.fits s.params = true)
    (hroom : s.reqReady = true → s.q.length < s.params.depth) : (s.requestEdge c).Inv := by
  rw [State.requestEdge]
  split
  · split
    · next hready => exact hs.accept (hs.withPresented_fits hr (s.accepts_mem c.req)) (hroom hready)
    · exact { hs with
        built := ⟨hs.built.legal, hs.built.exp_eq, hs.built.log_eq⟩
        presentedFits := fun x hx => hs.withPresented_fits hr hx }
  · exact hs

theorem State.room_of_drivesReady {s : State} {c : Cycle} (h : s.drivesReady c = true) :
    s.q.length < s.params.depth := by
  rw [State.drivesReady, Bool.and_eq_true, Bool.and_eq_true] at h
  obtain ⟨⟨-, hroom⟩, -⟩ := h
  exact of_decide_eq_true hroom

/-- A response that leaves takes no room away. -/
theorem State.responseEdge_room {s : State} (c : Cycle) (hroom : s.reqReady = true → s.q.length < s.params.depth)
    (hready : (s.responseEdge c).reqReady = true) : (s.responseEdge c).q.length < (s.responseEdge c).params.depth := by
  rw [State.responseEdge_reqReady] at hready
  rw [State.responseEdge_params]
  exact Nat.lt_of_le_of_lt (s.responseEdge_q_length_le c) (hroom hready)

theorem State.Inv.edge {s : State} {c : Cycle} (hs : s.Inv) (hr : c.req.fits s.params = true)
    (hroom : s.reqReady = true → s.q.length < s.params.depth) : (s.edge c).Inv := by
  rw [State.edge]
  split
  · exact hs.resetEdge
  · exact (hs.responseEdge c).requestEdge (by simpa using hr) (State.responseEdge_room c hroom)

/-- A block that drives `req_ready` has room until the edge. -/
theorem State.room_of_drive {s u : State} {c : Cycle} (h : (s.beginCycle c).drive c = .next u)
    (hready : u.reqReady = true) : u.q.length < u.params.depth := by
  obtain ⟨o, rfl⟩ := State.drive_frame h
  exact State.room_of_drivesReady hready

theorem State.Inv.inCycle {s t : State} {c : Cycle} (hs : s.Inv) (hr : c.req.fits s.params = true)
    (h : s.inCycle c = .next t) : t.Inv := by
  obtain ⟨u, hu, rfl⟩ := State.inCycle_next h
  refine ((hs.beginCycle c).drive hu).edge ?_ (State.room_of_drive hu)
  obtain ⟨o, rfl⟩ := State.drive_frame hu
  exact hr

theorem Cycle.quiet_req_fits (p : Params) : Cycle.quiet.req.fits p = true :=
  Request.fits_iff.2 ⟨Nat.two_pow_pos p.m, Nat.two_pow_pos p.m⟩

/-- The willing cycle past the end of the schedule carries the request of zeros. -/
theorem State.nextCycle_req_fits {s : State} (hs : s.PortsFit) : s.nextCycle.req.fits s.params = true := by
  cases h : s.schedule with
  | nil =>
    rw [State.nextCycle_of_empty h]
    exact Cycle.quiet_req_fits s.params
  | cons c rest =>
    rw [State.nextCycle_of_cons h]
    exact hs c (by simp [h])

/-- Settles O43: the cycle's parts keep the invariant one after the other. -/
theorem everyStepKeepsTheInvariant : Obligations.EveryStepKeepsTheInvariant :=
  fun _ _ hs hstep => hs.inCycle (State.nextCycle_req_fits hs.portsFit) hstep

/-! ### Cycles and transactions -/

theorem Transactions.single {p : Params} {a : Action} {x y : List Request × List Response} (h : Transaction p a x y) :
    Transactions p [a] x y := .more _ _ _ _ _ h (.done _)

theorem Transactions.append {p : Params} {as bs : List Action} {x y z : List Request × List Response}
    (hx : Transactions p as x y) (hy : Transactions p bs y z) : Transactions p (as ++ bs) x z := by
  induction hx with
  | done x => exact hy
  | more a rest x y _ ha _ ih => exact .more _ _ _ _ _ ha (ih hy)

/-- The response channel does one `respond` exactly when a response is on offer and the host is ready for it. -/
theorem State.Inv.responseEdge_transactions {s u : State} {c : Cycle} (hs : s.Inv) (h : s.drive c = .next u) :
    Transactions s.params (if s.offersIn c && c.rspReady then [.respond] else []) (s.q, s.taken)
      ((u.responseEdge c).q, (u.responseEdge c).taken) := by
  cases hready : c.rspReady with
  | false =>
    obtain ⟨o, rfl⟩ := State.drive_frame h
    simpa [State.responseEdge, hready] using Transactions.done _
  | true =>
    have hedge : u.responseEdge c = u.takeResponse := if_pos hready
    rw [hedge]
    obtain ⟨r, rest, y, hq, hr, hoffers, rfl⟩ | ⟨hoffers, hnone, rfl⟩ := hs.drive_next h
    · rw [State.takeResponse_of_some rfl, hoffers, hq]
      exact .single (.respond r rest s.taken y hr)
    · rw [State.takeResponse_of_none hnone, hoffers]
      exact .done _

/-- The request channel does one `accept` exactly when `req_valid` and `req_ready` are 1. -/
theorem State.requestEdge_transactions {s : State} {c : Cycle} (hfits : (s.accepts c.req).fits s.params = true)
    (hroom : s.reqReady = true → s.q.length < s.params.depth) :
    Transactions s.params (if c.reqValid && s.reqReady then [.accept (s.accepts c.req)] else []) (s.q, s.taken)
      ((s.requestEdge c).q, (s.requestEdge c).taken) := by
  rw [State.requestEdge]
  cases hvalid : c.reqValid with
  | false => exact .done _
  | true =>
    cases hready : s.reqReady with
    | false => exact .done _
    | true => exact .single (.accept s.q s.taken _ (hroom hready) hfits)

/-- Which request is accepted depends on what was presented and on the free value of the cycle. -/
theorem State.accepts_congr {s t : State} (hpresented : s.presented = t.presented) (htick : s.tick = t.tick)
    (r : Request) : s.accepts r = t.accepts r := by
  rw [State.accepts, State.accepts, State.withPresented, State.withPresented, hpresented, htick]

/-- Without reset the ports show the transactions of the two channels, one after the other. -/
theorem State.actionsNext_of_drive {s u : State} (hrst : s.nextCycle.rst = false)
    (h : (s.beginCycle s.nextCycle).drive s.nextCycle = .next u) :
    s.actionsNext = (if s.offersNext && s.nextCycle.rspReady then [.respond] else []) ++
      (if s.nextCycle.reqValid && (u.responseEdge s.nextCycle).reqReady then
        [.accept ((u.responseEdge s.nextCycle).accepts s.nextCycle.req)] else []) := by
  obtain ⟨o, rfl⟩ := State.drive_frame h
  rw [State.accepts_congr (t := s.beginCycle s.nextCycle) (by simp) (by simp), State.responseEdge_reqReady,
    State.actionsNext, State.acceptsNext, State.acceptsIn, hrst]
  cases s.nextCycle.reqValid <;> cases hready : s.drivesReady s.nextCycle <;> simp [hready]

/-- Settles O54: a reset edge is `reset`; any other is the response channel's part and then the request channel's. -/
theorem everyCycleIsASequenceOfTransactions : Obligations.EveryCycleIsASequenceOfTransactions := by
  intro s t hs hstep
  obtain ⟨u, hu, rfl⟩ := step_next hstep
  cases hrst : s.nextCycle.rst with
  | true =>
    have hactions : s.actionsNext = [.reset] := if_pos hrst
    have htaken : u.taken = s.taken := by obtain ⟨o, rfl⟩ := State.drive_frame hu; rfl
    rw [hactions, State.edge_of_rst _ hrst, State.resetEdge_q, State.resetEdge_taken, htaken]
    exact .single (.reset s.q s.taken)
  | false =>
    have hbegun := hs.beginCycle s.nextCycle
    have hparams : (u.responseEdge s.nextCycle).params = s.params := by
      obtain ⟨o, rfl⟩ := State.drive_frame hu
      simp
    have hfits := ((hbegun.drive hu).responseEdge s.nextCycle).withPresented_fits
      (hparams ▸ State.nextCycle_req_fits hs.portsFit) (State.accepts_mem _ s.nextCycle.req)
    have hrequest := State.requestEdge_transactions hfits (State.responseEdge_room _ (State.room_of_drive hu))
    rw [State.actionsNext_of_drive hrst hu, State.edge_of_not_rst u hrst]
    exact (hbegun.responseEdge_transactions hu).append (hparams ▸ hrequest)

/-! ### A cycle for each transaction -/

theorem Transactions.of_single {p : Params} {a : Action} {x y : List Request × List Response}
    (h : Transactions p [a] x y) : Transaction p a x y := by
  cases h with
  | more _ _ _ _ _ ha hdone =>
    cases hdone
    exact ha

/-- A transaction has one outcome, because a request has one response. -/
theorem Transaction.unique {p : Params} {a : Action} {x y z : List Request × List Response}
    (hy : Transaction p a x y) (hz : Transaction p a x z) : y = z := by
  cases hy with
  | accept q out r _ _ => cases hz; rfl
  | respond r rest out y hr =>
    cases hz with
    | respond _ _ _ z hr' => rw [Option.some.inj (hr.symm.trans hr')]
  | reset q out => cases hz; rfl

theorem Transaction.accept_enabled {p : Params} {r : Request} {x y : List Request × List Response}
    (h : Transaction p (.accept r) x y) : x.1.length < p.depth ∧ r.fits p = true := by
  cases h
  exact ⟨‹_›, ‹_›⟩

theorem Transaction.respond_enabled {p : Params} {x y : List Request × List Response} (h : Transaction p .respond x y) :
    ∃ r rest answer, x.1 = r :: rest ∧ eval p r = some answer := by
  cases h
  exact ⟨_, _, _, rfl, ‹_›⟩

/-- The cycle in which the host presents `r` and the block accepts it if it may, and nothing else happens. -/
def Cycle.acceptsOnly (r : Request) : Cycle := { Cycle.quiet with reqValid := true, req := r, ready := true }

/-- The cycle in which the block offers and the host takes the response, and nothing else happens. -/
def Cycle.respondsOnly : Cycle := { Cycle.quiet with offer := true, rspReady := true }

/-- The cycle with `rst = 1` and nothing else. -/
def Cycle.resetsOnly : Cycle := { Cycle.quiet with rst := true }

/-- The state with `c` before the cycles of the schedule. -/
def State.scheduling (s : State) (c : Cycle) : State := { s with schedule := c :: s.schedule }

@[simp] theorem State.scheduling_params (s : State) (c : Cycle) : (s.scheduling c).params = s.params := rfl
@[simp] theorem State.scheduling_q (s : State) (c : Cycle) : (s.scheduling c).q = s.q := rfl
@[simp] theorem State.scheduling_rsp (s : State) (c : Cycle) : (s.scheduling c).rsp = s.rsp := rfl
@[simp] theorem State.scheduling_presented (s : State) (c : Cycle) : (s.scheduling c).presented = s.presented := rfl
@[simp] theorem State.scheduling_nextCycle (s : State) (c : Cycle) : (s.scheduling c).nextCycle = c := rfl

theorem State.Inv.scheduling {s : State} (hs : s.Inv) {c : Cycle} (hc : c.req.fits s.params = true) :
    (s.scheduling c).Inv where
  built := ⟨hs.built.legal, hs.built.exp_eq, hs.built.log_eq⟩
  depth := hs.depth
  queueFits := hs.queueFits
  presentedFits := hs.presentedFits
  portsFit := List.forall_mem_cons.2 ⟨hc, hs.portsFit⟩
  offered := hs.offered

theorem State.drive_of_issues_none {s : State} {c : Cycle} (h : s.issues c = none) : s.drive c = .next s := by
  rw [State.drive, h]

/-- When the block may offer and chooses to, the cycle puts the oldest request's response on offer. -/
theorem State.Built.drive_of_issues {s : State} {c : Cycle} {r : Request} {y : Response} (hs : s.Built)
    (h : s.issues c = some r) (hr : eval s.params r = some y) : s.drive c = .next { s with rsp := some y } := by
  rw [State.drive, h]
  exact exec_eq_next_iff.2 ⟨y, (hs.answer_eq_eval r).trans hr, rfl⟩

/-- A cycle that the block drives and that shows one transaction does that one, and it has one outcome. -/
theorem State.Inv.step_scheduling {s u : State} {a : Action} {x : List Request × List Response} (hs : s.Inv)
    (ha : Transaction s.params a (s.q, s.taken) x) (c : Cycle) (hc : c.req.fits s.params = true)
    (hshown : (s.scheduling c).actionsNext = [a]) (hdrive : ((s.scheduling c).beginCycle c).drive c = .next u) :
    ∃ t, (s.scheduling c).actionsNext = [a] ∧ step (s.scheduling c) = .next t ∧ (t.q, t.taken) = x := by
  have hstep := step_of_drive (s := s.scheduling c) hdrive
  have hcycle := everyCycleIsASequenceOfTransactions _ _ (hs.scheduling hc) hstep
  rw [hshown] at hcycle
  exact ⟨_, hshown, hstep, hcycle.of_single.unique ha⟩

/-- Settles O55: `acceptsOnly`, `respondsOnly` and `resetsOnly` each show their one transaction. -/
theorem everyTransactionIsSomeCycle : Obligations.EveryTransactionIsSomeCycle := by
  intro s a x hs hnone hpresented ha
  have hzero := Cycle.quiet_req_fits s.params
  cases a with
  | accept r =>
    obtain ⟨hroom, hr⟩ : s.q.length < s.params.depth ∧ r.fits s.params = true := ha.accept_enabled
    have hready : (s.scheduling (.acceptsOnly r)).drivesReady (.acceptsOnly r) = true := by
      simp [State.drivesReady, Cycle.acceptsOnly, Cycle.quiet, hroom]
    have hkept : ((s.scheduling (.acceptsOnly r)).beginCycle (.acceptsOnly r)).accepts r = r :=
      State.accepts_of_kept (by simp [hpresented]) (by simp [hpresented])
    have haccepts : (s.scheduling (.acceptsOnly r)).acceptsNext = [r] := by
      rw [State.acceptsNext, State.scheduling_nextCycle, State.acceptsIn, hready]
      exact congrArg (fun r => [r]) hkept
    have hshown : (s.scheduling (.acceptsOnly r)).actionsNext = [.accept r] := by
      rw [State.actionsNext, haccepts]
      simp [Cycle.acceptsOnly, Cycle.quiet]
    exact ⟨_, hs.step_scheduling ha (.acceptsOnly r) hr hshown (State.drive_of_issues_none rfl)⟩
  | respond =>
    obtain ⟨r, rest, y, hq, hr⟩ : ∃ r rest y, s.q = r :: rest ∧ eval s.params r = some y := ha.respond_enabled
    have hshown : (s.scheduling .respondsOnly).actionsNext = [.respond] := by
      simp [State.actionsNext, State.offersIn, State.acceptsIn, Cycle.respondsOnly, Cycle.quiet, hq]
    have hissues : ((s.scheduling .respondsOnly).beginCycle .respondsOnly).issues .respondsOnly = some r := by
      simp [State.issues, Cycle.respondsOnly, Cycle.quiet, hnone, hq]
    exact ⟨_, hs.step_scheduling ha .respondsOnly hzero hshown
      (((hs.scheduling hzero).beginCycle _).built.drive_of_issues hissues hr)⟩
  | reset => exact ⟨_, hs.step_scheduling ha .resetsOnly hzero rfl (State.drive_of_issues_none rfl)⟩

end Sys2Proof.Machine
end

section
/-! PROOFS. What the statements of spec/20_memory.md need of a block in use: no operand that fits the ports leads to an
index outside a table (R46), so the block always gets to the edge of a cycle. -/

namespace Sys2Proof.Machine

/-- An index modulo ORD names an entry of `EXP`. -/
theorem State.respondExp_runs {s : State} {k : Nat} (h : k < s.params.ord) :
    ∃ t, s.readExp k (fun y => s.respond y .ok) = .next t := by
  have hk : k < 2 * s.params.fs := by have := s.params.ord_succ; omega
  exact ⟨_, State.readExp_of_lt hk _⟩

/-- spec/20_memory.md R46: every index that an operation forms from operands that fit is one of a table. -/
theorem exec_runs {i : Instr} {s : State} (hp : s.params.Legal) (hi : i.wf s.params = true) :
    ∃ t, exec i s = .next t := by
  have hord : 0 < s.params.ord := Params.ord_pos hp.1
  cases i with
  | add a b => exact ⟨_, rfl⟩
  | sub a b => exact ⟨_, rfl⟩
  | mul a b =>
    obtain ⟨ha, hb⟩ := Laws.EncodedFieldsFit.elements_lt hi
    rw [exec, execMul]
    split
    · exact ⟨_, rfl⟩
    · rw [State.readLog_of_lt ha, State.readLog_of_lt hb]
      exact State.respondExp_runs (Nat.mod_lt _ hord)
  | div a b =>
    obtain ⟨ha, hb⟩ := Laws.EncodedFieldsFit.elements_lt hi
    rw [exec, execDiv]
    split
    · exact ⟨_, rfl⟩
    · split
      · exact ⟨_, rfl⟩
      · rw [State.readLog_of_lt ha, State.readLog_of_lt hb]
        exact State.respondExp_runs (eucMod_lt _ hord)
  | inv a =>
    rw [exec, execInv]
    split
    · exact ⟨_, rfl⟩
    · rw [State.readLog_of_lt (Params.isElement_iff.1 hi)]
      exact State.respondExp_runs (eucMod_lt _ hord)
  | mulraw a b => exact ⟨_, rfl⟩
  | exprd idx =>
    rw [exec, execExprd, State.readExp_of_lt (of_decide_eq_true hi)]
    exact ⟨_, rfl⟩
  | logrd a =>
    rw [exec, execLogrd, State.readLog_of_lt (Params.isElement_iff.1 hi)]
    exact ⟨_, rfl⟩
  | reserved op => exact ⟨_, rfl⟩

theorem State.drive_of_issues {s : State} {c : Cycle} {r : Request} (h : s.issues c = some r) :
    s.drive c = exec (r.decode s.params.m) s := by
  rw [State.drive, h]

theorem State.Inv.drive_runs {s : State} (hs : s.Inv) (c : Cycle) : ∃ u, s.drive c = .next u := by
  cases h : s.issues c with
  | none => exact ⟨s, State.drive_of_issues_none h⟩
  | some r =>
    obtain ⟨-, -, -, hhead⟩ := State.issues_eq_some h
    rw [State.drive_of_issues h]
    exact exec_runs hs.built.legal (Request.decode_wf (hs.queueFits r (List.mem_of_mem_head? hhead)))

end Sys2Proof.Machine
end

section
/-! PROOFS. The statements of spec/20_memory.md: that the block never stops (R46), the instruction a step runs, one cycle
of the handshake (R47, R48), and the responses of whole runs (R48, R49). -/

namespace Sys2Proof.Machine

/-- Settles O44: the drive has a next state, and the edge always does. -/
theorem aBlockInUseNeverStops : Obligations.ABlockInUseNeverStops := by
  intro s hs
  obtain ⟨u, hu⟩ := (hs.beginCycle s.nextCycle).drive_runs s.nextCycle
  exact ⟨_, step_of_drive hu⟩

/-- Settles O22: blocks of one M and PRIM_POLY hold the same tables. -/
theorem answersDependOnParametersAlone : Obligations.AnswersDependOnParametersAlone :=
  fun i _ _ hs ht hm hpoly => (hs.sameField ht hm hpoly).answer_eq i

/-! ### The instruction a step runs -/

@[simp] theorem State.beginCycle_issues (s : State) (c d : Cycle) : (s.beginCycle c).issues d = s.issues d := rfl

theorem andThen_next_right (r : Result) : andThen r .next = r := by
  cases r <;> rfl

/-- In a cycle in which the block starts to offer, the step executes the oldest request. -/
theorem step_of_issues {s : State} {r : Request} (h : s.issues s.nextCycle = some r) :
    step s = andThen (exec (r.decode s.params.m) (s.beginCycle s.nextCycle)) fun t => .next (t.edge s.nextCycle) := by
  rw [step, State.inCycle, State.drive_of_issues (by simpa using h), State.beginCycle_params]

theorem Request.decode_eq_of_word {p : Params} {r : Request} {i : Instr} (hr : r.fits p = true)
    (h : decode p.m (r.toWord p.m) = .ok i) : r.decode p.m = i := by
  obtain ⟨ha, hb⟩ := Request.fits_iff.1 hr
  rw [decode_of_lt (Request.toWord_lt ha hb), Request.ofWord_toWord ha hb] at h
  exact Except.ok.inj h

theorem decode_ofWord_of_ok {m w : Nat} {i : Instr} (h : decode m w = .ok i) : (Request.ofWord m w).decode m = i := by
  by_cases hw : w < 2 ^ requestBits m
  · rw [decode_of_lt hw] at h
    exact Except.ok.inj h
  · rw [decode_of_not_lt hw] at h
    cases h

/-- In that cycle the host presents nothing and takes nothing, so its edge changes nothing. -/
@[simp] theorem State.edge_offersOnly (s : State) : s.edge Cycle.offersOnly = s := rfl

/-- Settles O9: a request's word decodes to what the request does, and `withFetchWord` schedules a cycle that offers. -/
theorem stepExecutesTheInstructionTheOldestRequestDecodesTo :
    Obligations.StepExecutesTheInstructionTheOldestRequestDecodesTo := by
  refine ⟨fun s r i hissues hr hi => ?_, fun s hnone => ?_, fun s nbits w i hi => ?_⟩
  · rw [step_of_issues hissues, Request.decode_eq_of_word hr hi]
  · exact step_of_drive (State.drive_of_issues_none (by simpa using hnone))
  · have hissues : (s.withFetchWord nbits w).issues (s.withFetchWord nbits w).nextCycle =
        some (Request.ofWord s.params.m (w % 2 ^ nbits)) := rfl
    have hparams : (s.withFetchWord nbits w).params = s.params := rfl
    have hnext : (s.withFetchWord nbits w).nextCycle = Cycle.offersOnly := rfl
    rw [step_of_issues hissues, hparams, decode_ofWord_of_ok hi, hnext]
    simpa using andThen_next_right _

/-! ### One cycle of the handshake -/

/-- The response channel of a cycle: the old head leaves when its response is on offer and the host is ready for it. -/
theorem State.Inv.responseEdge_of_drive {s u : State} {c : Cycle} (hs : s.Inv) (h : s.drive c = .next u) :
    (u.responseEdge c).q = (if s.offersIn c && c.rspReady then s.q.tail else s.q) ∧
    (u.responseEdge c).taken.map some =
      s.taken.map some ++ (if s.offersIn c && c.rspReady then [s.q.head?.bind (eval s.params)] else []) ∧
    (u.responseEdge c).rsp = (if s.offersIn c && !c.rspReady then s.q.head?.bind (eval s.params) else none) := by
  obtain ⟨r, rest, y, hq, hr, hoffers, rfl⟩ | ⟨hoffers, hnone, rfl⟩ := hs.drive_next h
  · cases hready : c.rspReady with
    | true => simp [State.responseEdge, hready, State.takeResponse_of_some, hoffers, hq, hr]
    | false => simp [State.responseEdge, hready, hoffers, hq, hr]
  · have hstays : u.responseEdge c = u := by simp [State.responseEdge, State.takeResponse_of_none hnone]
    simp [hstays, hoffers, hnone]

/-- The request channel of a cycle: a request joins the tail when `req_valid` and `req_ready` are 1. -/
theorem State.requestEdge_q (s : State) (c : Cycle) :
    (s.requestEdge c).q = s.q ++ (if c.reqValid && s.reqReady then [s.accepts c.req] else []) := by
  rw [State.requestEdge]
  cases c.reqValid <;> cases s.reqReady <;> simp

/-- Settles O45: the response channel's part and then the request channel's, which accepts the request kept. -/
theorem oneCycleTransfersAsTheHandshakeSays : Obligations.OneCycleTransfersAsTheHandshakeSays := by
  intro s hs hrst hkept hlen ready taken
  have hbegun := hs.beginCycle s.nextCycle
  obtain ⟨u, hu⟩ := hbegun.drive_runs s.nextCycle
  obtain ⟨hq, htaken, hrsp⟩ := hbegun.responseEdge_of_drive hu
  have hready : (u.responseEdge s.nextCycle).reqReady = ready := by
    obtain ⟨o, rfl⟩ := State.drive_frame hu
    simp [State.drivesReady, hrst, ready, Bool.and_comm]
  have haccepts : (u.responseEdge s.nextCycle).accepts s.nextCycle.req = s.nextCycle.req := by
    obtain ⟨o, rfl⟩ := State.drive_frame hu
    exact State.accepts_of_kept (by simpa using hkept) (by simpa using hlen)
  refine ⟨_, step_of_drive hu, ?_⟩
  rw [State.edge_of_not_rst u hrst]
  refine ⟨?_, ?_, ?_, ?_⟩
  · rw [State.requestEdge_reqReady, hready]
  · rw [State.requestEdge_q, hready, haccepts, hq]
    rfl
  · rw [State.requestEdge_taken, htaken]
    rfl
  · rw [State.requestEdge_rsp, hrsp]
    rfl

/-! ### The ledger of requests and responses -/

/-- The responses emitted, followed by those due for the requests in flight. -/
def ledger (p : Params) (x : List Request × List Response) : List (Option Response) :=
  x.2.map some ++ x.1.map (eval p)

/-- The request that a transaction accepts. -/
def Action.accepted (a : Action) : List Request :=
  match a with
  | .accept r => [r]
  | .respond => []
  | .reset => []

/-- An acceptance adds the response due at the end of the ledger; a response that is taken keeps its place. -/
theorem Transaction.ledger_eq {p : Params} {a : Action} {x y : List Request × List Response} (h : Transaction p a x y)
    (ha : a ≠ .reset) : ledger p y = ledger p x ++ a.accepted.map (eval p) := by
  cases h with
  | accept q out r _ _ => simp [ledger, Action.accepted]
  | respond r rest out y hr => simp [ledger, Action.accepted, hr]
  | reset q out => exact absurd rfl ha

theorem Transactions.ledger_eq {p : Params} {as : List Action} {x y : List Request × List Response}
    (h : Transactions p as x y) (has : .reset ∉ as) :
    ledger p y = ledger p x ++ (as.flatMap Action.accepted).map (eval p) := by
  induction h with
  | done x => simp
  | more a rest x y z ha _ ih =>
    obtain ⟨hne, hrest⟩ := List.ne_and_not_mem_of_not_mem_cons has
    rw [ih hrest, ha.ledger_eq hne.symm]
    simp

theorem State.reset_not_mem_actionsNext {s : State} (hrst : s.nextCycle.rst = false) : .reset ∉ s.actionsNext := by
  simp [State.actionsNext, hrst]

theorem State.accepted_actionsNext {s : State} (hrst : s.nextCycle.rst = false) :
    s.actionsNext.flatMap Action.accepted = s.acceptsNext := by
  have haccepts (l : List Request) : (l.map Action.accept).flatMap Action.accepted = l := by
    simp [List.flatMap_map, Action.accepted]
  rw [State.actionsNext, if_neg (by simp [hrst]), List.flatMap_append, haccepts]
  split <;> rfl

/-- spec/20_memory.md R47, R48: a cycle without reset extends the ledger by what it accepts. -/
theorem State.Inv.step_ledger {s t : State} (hs : s.Inv) (hrst : s.nextCycle.rst = false) (h : step s = .next t) :
    ledger s.params (t.q, t.taken) = ledger s.params (s.q, s.taken) ++ s.acceptsNext.map (eval s.params) := by
  have hcycle := everyCycleIsASequenceOfTransactions s t hs h
  rw [hcycle.ledger_eq (State.reset_not_mem_actionsNext hrst), State.accepted_actionsNext hrst]

/-! ### Runs without reset -/

/-- A run of a machine begins with a step. -/
theorem run_succ_next {M : Host.Core} {n : Nat} {s t : M.State} (h : M.run (n + 1) s = .next t) :
    ∃ u, M.step s = .next u ∧ M.run n u = .next t := by
  rw [Host.Core.run] at h
  split at h
  · next u hu => exact ⟨u, hu, h⟩
  · cases h
  · cases h

/-- The same of this machine, in its own names. -/
theorem core_run_succ_next {n : Nat} {s t : State} (h : Sys2Proof.core.run (n + 1) s = .next t) :
    ∃ u, step s = .next u ∧ Sys2Proof.core.run n u = .next t := run_succ_next h

theorem acceptedIn_succ {n : Nat} {s u : State} (h : step s = .next u) :
    acceptedIn (n + 1) s = s.acceptsNext ++ acceptedIn n u := by
  rw [acceptedIn, h]

theorem State.NoReset.nextCycle_rst {s : State} (hs : s.NoReset) : s.nextCycle.rst = false := by
  cases h : s.schedule with
  | nil => rw [State.nextCycle_of_empty h]; rfl
  | cons c rest => rw [State.nextCycle_of_cons h]; exact hs c (by simp [h])

theorem State.NoReset.step {s t : State} (hs : s.NoReset) (h : step s = .next t) : t.NoReset := by
  rw [State.NoReset, State.inCycle_schedule h]
  exact fun c hc => hs c (List.mem_of_mem_tail hc)

/-- Every cycle of the run extends the ledger by what it accepts. -/
theorem State.Inv.run_ledger {n : Nat} {s t : State} (hs : s.Inv) (hreset : s.NoReset)
    (h : Sys2Proof.core.run n s = .next t) :
    ledger s.params (t.q, t.taken) = ledger s.params (s.q, s.taken) ++ (acceptedIn n s).map (eval s.params) := by
  induction n generalizing s with
  | zero =>
    obtain rfl : s = t := Host.Outcome.next.inj h
    simp [acceptedIn]
  | succ n ih =>
    obtain ⟨u, hstep, hrest⟩ := core_run_succ_next h
    have hparams : u.params = s.params := (State.inCycle_frame hstep).1
    have hlater := ih (everyStepKeepsTheInvariant s u hs hstep) (State.NoReset.step hreset hstep) hrest
    rw [hparams, hs.step_ledger (State.NoReset.nextCycle_rst hreset) hstep] at hlater
    rw [hlater, acceptedIn_succ hstep, List.map_append, List.append_assoc]

/-- Settles O47, by induction on the number of cycles. -/
theorem responsesComeOncePerRequestInOrder : Obligations.ResponsesComeOncePerRequestInOrder :=
  fun _ _ _ hs hreset hrun => hs.run_ledger hreset hrun

/-! ### Two runs that accept the same requests -/

/-- The depth of the queue is no input of a response. -/
theorem eval_congr {p p' : Params} (hp : p.Legal) (hp' : p'.Legal) (hm : p.m = p'.m) (hpoly : p.poly = p'.poly) :
    eval p = eval p' := by
  funext r
  rw [eval, eval, hm]
  exact answersDependOnParametersAlone _ _ _ (State.fresh_built hp) (State.fresh_built hp') hm hpoly

/-- From nothing in flight, the responses taken and those due are the ones of the requests accepted. -/
theorem State.Inv.run_from_idle {n : Nat} {s t : State} (hs : s.Inv) (hreset : s.NoReset) (hq : s.q = [])
    (htaken : s.taken = []) (h : Sys2Proof.core.run n s = .next t) :
    t.taken.map some ++ t.q.map (eval s.params) = (acceptedIn n s).map (eval s.params) := by
  simpa [hq, htaken] using responsesComeOncePerRequestInOrder n s t hs hreset h

/-- Settles O46: both lists of responses begin the one list that the accepted requests determine. -/
theorem everyInterleavingGivesTheSameResponses : Obligations.EveryInterleavingGivesTheSameResponses := by
  intro n₁ n₂ s₁ s₂ t₁ t₂ hs₁ hs₂ hm hpoly hq₁ hq₂ htaken₁ htaken₂ hreset₁ hreset₂ hrun₁ hrun₂ haccepted
  have hdue₁ := hs₁.run_from_idle hreset₁ hq₁ htaken₁ hrun₁
  have hdue₂ := hs₂.run_from_idle hreset₂ hq₂ htaken₂ hrun₂
  rw [haccepted, eval_congr hs₁.built.legal hs₂.built.legal hm hpoly] at hdue₁
  have hsome := Option.some_injective Response
  constructor
  · exact (List.prefix_or_prefix_of_prefix ⟨_, hdue₁⟩ ⟨_, hdue₂⟩).imp
      (List.prefix_map_iff_of_injective hsome).1 (List.prefix_map_iff_of_injective hsome).1
  · intro hdone₁ hdone₂
    rw [hdone₁] at hdue₁
    rw [hdone₂] at hdue₂
    exact hsome.list_map (by simpa using hdue₁.trans hdue₂.symm)

end Sys2Proof.Machine
end

section
/-! PROOFS. The request word and the decoder (spec/30_encoding.md R63, R65 to R69). -/

namespace Sys2Proof

/-! ### The fields of a request word -/

@[simp] theorem Request.ofWord_op_toNat (m w : Nat) : (Request.ofWord m w).op.toNat = w % 2 ^ 4 := by
  simp [Request.ofWord, bitField]

@[simp] theorem Request.ofWord_a (m w : Nat) : (Request.ofWord m w).a = w / 2 ^ 4 % 2 ^ m :=
  congrArg (· % 2 ^ m) (Nat.shiftRight_eq_div_pow w 4)

@[simp] theorem Request.ofWord_b (m w : Nat) : (Request.ofWord m w).b = w / 2 ^ (m + 4) % 2 ^ m :=
  congrArg (· % 2 ^ m) (Nat.shiftRight_eq_div_pow w (m + 4))

theorem Request.ofWord_fits (p : Params) (w : Nat) : (Request.ofWord p.m w).fits p = true :=
  Request.fits_iff.2 ⟨bitField_lt _ _ _, bitField_lt _ _ _⟩

/-- The three fields are all there is of a request word. -/
theorem Request.toWord_ofWord {m w : Nat} (h : w < 2 ^ (2 * m + 4)) : (Request.ofWord m w).toWord m = w := by
  have hsplit : 2 ^ (2 * m + 4) = 2 ^ (m + 4) * 2 ^ m := by rw [← Nat.pow_add]; congr 1; omega
  have hb : w / 2 ^ (m + 4) % 2 ^ m = w / 2 ^ (m + 4) :=
    Nat.mod_eq_of_lt (Nat.div_lt_of_lt_mul (hsplit ▸ h))
  calc (Request.ofWord m w).toWord m
      = w % 2 ^ 4 + 2 ^ 4 * (w / 2 ^ 4 % 2 ^ m) + 2 ^ (m + 4) * (w / 2 ^ (m + 4)) := by
        rw [Request.toWord_eq_add (bitField_lt w 4 m)]
        simp only [Request.ofWord_op_toNat, Request.ofWord_a, Request.ofWord_b, hb]
    _ = w % 2 ^ (m + 4) + 2 ^ (m + 4) * (w / 2 ^ (m + 4)) := by
        rw [Nat.add_comm m 4, Nat.pow_add, Nat.mod_mul]
    _ = w := Nat.mod_add_div _ _

/-- Settles O1: the word is the sum of its fields at their weights, and taking it apart undoes that. -/
theorem requestWordFieldsAreOpThenAThenB : Obligations.RequestWordFieldsAreOpThenAThenB := by
  intro p r _ hr
  obtain ⟨ha, hb⟩ := Request.fits_iff.1 hr
  have hback := Request.ofWord_toWord ha hb
  refine ⟨Request.toWord_lt ha hb, Request.toWord_eq_add ha, ?_, ?_, ?_, hback,
    fun w hw => ⟨Request.ofWord_fits p w, Request.toWord_ofWord hw⟩⟩
  · rw [← Request.ofWord_op_toNat p.m, hback]
  · rw [← Request.ofWord_a, hback]
  · rw [← Request.ofWord_b, hback]

/-! ### The opcode map -/

theorem Request.decode_of_reserved (m : Nat) {r : Request} (h : 8 ≤ r.op.toNat) : r.decode m = .reserved r.op := by
  unfold Request.decode
  split
  case h_9 => rfl
  all_goals omega

/-- Settles O3: the fields of any word fit, and a decoded request that fits is well formed. -/
theorem everyRequestWordIsAnInstruction : Obligations.EveryRequestWordIsAnInstruction := by
  intro p w _
  refine ⟨fun hw => ⟨_, decode_of_lt hw, Request.decode_wf (Request.ofWord_fits p w), fun hop => ?_⟩,
    fun hw => decode_of_not_lt (Nat.not_lt.2 hw)⟩
  rw [← Request.ofWord_op_toNat p.m] at hop ⊢
  rw [Request.decode_of_reserved _ hop, BitVec.ofNat_toNat, BitVec.setWidth_eq]

/-! ### EXPRD's index is `b[0]` above `a` (R69) -/

/-- Only bit 0 of the b field counts. -/
theorem exprdIndex_eq_add (m a b : Nat) : exprdIndex m a b = a + 2 ^ m * (b % 2) := by
  rw [exprdIndex, Nat.and_one_is_mod]

theorem exprdIndex_mod_two (m a b : Nat) : exprdIndex m a (b % 2) = exprdIndex m a b := by
  rw [exprdIndex_eq_add, exprdIndex_eq_add, Nat.mod_mod]

/-- An index of M+1 bits is put together again from the two fields that carry it. -/
theorem exprdIndex_fields {m idx : Nat} (h : idx < 2 * 2 ^ m) :
    exprdIndex m ((Instr.exprd idx).fieldA m) ((Instr.exprd idx).fieldB m) = idx := by
  have hbit : idx / 2 ^ m < 2 := Nat.div_lt_of_lt_mul (Nat.mul_comm 2 _ ▸ h)
  rw [exprdIndex_eq_add, Instr.fieldA, Instr.fieldB, Nat.and_two_pow_sub_one_eq_mod, Nat.shiftRight_eq_div_pow,
    Nat.mod_eq_of_lt hbit, Nat.mod_add_div]

theorem exprd_request {m a : Nat} (b : Nat) (h : a < 2 ^ m) :
    (Instr.exprd (a + 2 ^ m * b)).request m = ⟨0x6, a, b⟩ := by
  rw [Instr.request, Instr.fieldA, Instr.fieldB, Nat.and_two_pow_sub_one_eq_mod, Nat.shiftRight_eq_div_pow,
    Nat.add_mul_mod_self_left, Nat.mod_eq_of_lt h, Nat.add_mul_div_left _ _ (Nat.two_pow_pos m), Nat.div_eq_of_lt h,
    Nat.zero_add]
  rfl

/-! ### Decode of encode -/

/-- The request that carries a well-formed instruction means that instruction. -/
theorem Instr.decode_request {p : Params} {i : Instr} (h : i.wf p = true) : (i.request p.m).decode p.m = i := by
  cases i with
  | exprd idx => exact congrArg Instr.exprd (exprdIndex_fields (of_decide_eq_true h))
  | reserved op => exact Request.decode_of_reserved p.m (of_decide_eq_true h)
  | _ => rfl

theorem Instr.encodedFieldsFit (i : Instr) : Laws.EncodedFieldsFit.Statement i := by
  cases i with
  | add a b => exact Laws.EncodedFieldsFit.add a b
  | sub a b => exact Laws.EncodedFieldsFit.sub a b
  | mul a b => exact Laws.EncodedFieldsFit.mul a b
  | div a b => exact Laws.EncodedFieldsFit.div a b
  | inv a => exact Laws.EncodedFieldsFit.inv a
  | mulraw a b => exact Laws.EncodedFieldsFit.mulraw a b
  | exprd idx => exact Laws.EncodedFieldsFit.exprd idx
  | logrd a => exact Laws.EncodedFieldsFit.logrd a
  | reserved op => exact Laws.EncodedFieldsFit.reserved op

theorem Request.decode_toWord {p : Params} {r : Request} (h : r.fits p = true) :
    Sys2Proof.decode p.m (r.toWord p.m) = .ok (r.decode p.m) := by
  obtain ⟨ha, hb⟩ := Request.fits_iff.1 h
  rw [decode_of_lt (Request.toWord_lt ha hb), Request.ofWord_toWord ha hb]

/-- Settles O2: the word gives the request back, and the request means the instruction. -/
theorem decodingAnEncodedInstructionGivesItBack : Obligations.DecodingAnEncodedInstructionGivesItBack := by
  intro p i hp hi
  obtain ⟨hfits, -⟩ := i.encodedFieldsFit p hp.1 hi
  rw [encode, Request.decode_toWord hfits, Instr.decode_request hi]

/-- Settles O5: each word is a closed number, so the decoder computes its instruction. -/
theorem wordsOfTheSpecDecodeToTheirInstructions : Obligations.WordsOfTheSpecDecodeToTheirInstructions := by
  unfold Obligations.WordsOfTheSpecDecodeToTheirInstructions
  decide

/-! ### Ignored fields -/

namespace Machine

theorem eval_congr_decode {p : Params} {r r' : Request} (h : r.decode p.m = r'.decode p.m) : eval p r = eval p r' := by
  rw [eval, eval, h]

/-- Settles O4: the decoder drops an ignored field, so the requests mean one instruction. -/
theorem ignoredFieldsDoNotAffectTheResponse : Obligations.IgnoredFieldsDoNotAffectTheResponse := by
  intro p op a b _ ha hb
  have hexprd : Request.decode p.m ⟨0x6, a, b⟩ = Request.decode p.m ⟨0x6, a, b % 2⟩ :=
    congrArg Instr.exprd (exprdIndex_mod_two p.m a b).symm
  have hreserved (hop : 8 ≤ op.toNat) : Request.decode p.m ⟨op, a, b⟩ = Request.decode p.m ⟨op, 0, 0⟩ := by
    rw [Request.decode_of_reserved _ hop, Request.decode_of_reserved _ hop]
  exact ⟨eval_congr_decode rfl, eval_congr_decode rfl, eval_congr_decode hexprd,
    fun hop => eval_congr_decode (hreserved hop), ⟨rfl, rfl, exprd_request _ ha, rfl⟩,
    _, Request.decode_toWord (Request.fits_iff.2 ⟨ha, hb⟩)⟩

/-! ### The response word -/

theorem responseWord_eq_add {m : Nat} {r : Response} (h : r.result < 2 ^ m) :
    responseWord m r = r.result + 2 ^ m * (errCode r.err).toNat := by
  rw [responseWord, Nat.shiftLeft_eq, Nat.mul_comm, Nat.or_comm, ← Nat.two_pow_add_eq_or_of_lt h, Nat.add_comm]

/-- Settles O6: the result fills the low M bits, and the error code is the two above. -/
theorem responseWordFieldsAreResultThenErr : Obligations.ResponseWordFieldsAreResultThenErr := by
  refine ⟨fun p r _ hr => ?_, rfl, rfl, rfl, rfl⟩
  have hresult : r.result < 2 ^ p.m := hr
  have herr : 2 ^ p.m * ((errCode r.err).toNat + 1) ≤ 2 ^ p.m * 4 := Nat.mul_le_mul_left _ (errCode r.err).isLt
  rw [responseWord_eq_add hresult]
  refine ⟨rfl, ?_, ?_, ?_⟩
  · rw [Nat.add_mul_mod_self_left, Nat.mod_eq_of_lt hresult]
  · rw [Nat.add_mul_div_left _ _ (Nat.two_pow_pos p.m), Nat.div_eq_of_lt hresult, Nat.zero_add]
  · rw [Nat.pow_add]
    rw [Nat.mul_add] at herr
    omega

end Machine

end Sys2Proof
end

section
/-! PROOFS. The assembler (spec/30_encoding.md R71, R72) and the calls of the source (R70). -/

namespace Sys2Proof.Machine

/-! ### The operands of a line -/

theorem asmElement_of_lt {m x : Nat} (h : x < 2 ^ m) : asmElement m x = .ok x := if_pos h

theorem asmElement_of_le {m x : Nat} (h : 2 ^ m ≤ x) : asmElement m x = .error .elementTooLarge :=
  if_neg (Nat.not_lt.2 h)

theorem asmPair_of_lt {m a b : Nat} (f : Nat → Nat → Instr) (ha : a < 2 ^ m) (hb : b < 2 ^ m) :
    asmPair m f a b = .ok (encode m (f a b)) := by
  rw [asmPair, asmElement_of_lt ha, asmElement_of_lt hb]

theorem asmPair_of_le {m a b : Nat} (f : Nat → Nat → Instr) (h : 2 ^ m ≤ a ∨ 2 ^ m ≤ b) :
    asmPair m f a b = .error .elementTooLarge := by
  rw [asmPair]
  by_cases ha : a < 2 ^ m
  · rw [asmElement_of_lt ha, asmElement_of_le (h.resolve_left (Nat.not_le.2 ha))]
  · rw [asmElement_of_le (Nat.not_lt.1 ha)]

theorem asmSingle_of_lt {m a : Nat} (f : Nat → Instr) (h : a < 2 ^ m) : asmSingle m f a = .ok (encode m (f a)) := by
  rw [asmSingle, asmElement_of_lt h]

theorem asmSingle_of_le {m a : Nat} (f : Nat → Instr) (h : 2 ^ m ≤ a) : asmSingle m f a = .error .elementTooLarge := by
  rw [asmSingle, asmElement_of_le h]

/-! ### The forms -/

/-- A line whose word is that of a well-formed instruction assembles to a word of that instruction. -/
theorem assemble_decodes {p : Params} {l : Asm} {i : Instr} (hp : p.Legal) (hi : i.wf p = true)
    (h : assemble p.m l = .ok (encode p.m i)) : ∃ w, assemble p.m l = .ok w ∧ decode p.m w = .ok i :=
  ⟨_, h, decodingAnEncodedInstructionGivesItBack p i hp hi⟩

/-- Settles O8: the operand checks of a form are the well-formedness of its instruction. -/
theorem assembledFormsDecodeToTheirInstructions : Obligations.AssembledFormsDecodeToTheirInstructions := by
  intro p a b idx w hp
  refine ⟨fun ha hb => ?_, fun ha => ?_, fun hidx => ?_, fun hw => if_pos hw, fun h => ?_, fun ha => ?_,
    fun hidx => if_neg (Nat.not_lt.2 hidx), fun hw => if_neg (Nat.not_lt.2 hw)⟩
  · have hab : (p.isElement a && p.isElement b) = true := by simp [ha, hb]
    exact ⟨assemble_decodes hp hab (asmPair_of_lt _ ha hb), assemble_decodes hp hab (asmPair_of_lt _ ha hb),
      assemble_decodes hp hab (asmPair_of_lt _ ha hb), assemble_decodes hp hab (asmPair_of_lt _ ha hb),
      assemble_decodes hp hab (asmPair_of_lt _ ha hb)⟩
  · have hwf : p.isElement a = true := Params.isElement_iff.2 ha
    exact ⟨assemble_decodes hp hwf (asmSingle_of_lt _ ha), assemble_decodes hp hwf (asmSingle_of_lt _ ha)⟩
  · exact assemble_decodes hp (decide_eq_true hidx) (if_pos hidx)
  · exact ⟨asmPair_of_le _ h, asmPair_of_le _ h, asmPair_of_le _ h, asmPair_of_le _ h, asmPair_of_le _ h⟩
  · exact ⟨asmSingle_of_le _ ha, asmSingle_of_le _ ha⟩

theorem answer_add (a b : Nat) (s : State) : answer (.add a b) s = some ⟨a ^^^ b, .ok⟩ := rfl

/-- Settles O7: a pseudo-instruction assembles as the form it stands for, and 0 is the unit of exclusive or. -/
theorem pseudoInstructionsExpandToOneRequest : Obligations.PseudoInstructionsExpandToOneRequest :=
  fun _ a _ s => ⟨rfl, rfl, rfl, rfl, rfl, by rw [answer_add, Nat.xor_zero]⟩

/-! ### What MUL, DIV and INV answer -/

theorem State.respondExp_of_lt {s : State} {k : Nat} (h : k < s.params.ord) :
    s.readExp k (fun y => s.respond y .ok) = s.respond (s.exp.read k) .ok :=
  State.readExp_of_lt (by have := s.params.ord_succ; omega) _

theorem exec_mul_of_zero {a b : Nat} (s : State) (h : a = 0 ∨ b = 0) : exec (.mul a b) s = s.respond 0 .ok := if_pos h

section
variable {s : State} {a b : Nat} (hp : s.params.Legal)
include hp

theorem exec_mul_of_ne_zero (ha : a < s.params.fs) (hb : b < s.params.fs) (ha0 : a ≠ 0) (hb0 : b ≠ 0) :
    exec (.mul a b) s = s.respond (s.exp.read (mulIndex s.params (s.log.read a) (s.log.read b))) .ok := by
  rw [exec, execMul, if_neg (not_or.2 ⟨ha0, hb0⟩), State.readLog_of_lt ha, State.readLog_of_lt hb]
  exact State.respondExp_of_lt (Nat.mod_lt _ (Params.ord_pos hp.1))

theorem exec_div_of_ne_zero (ha : a < s.params.fs) (hb : b < s.params.fs) (ha0 : a ≠ 0) (hb0 : b ≠ 0) :
    exec (.div a b) s = s.respond (s.exp.read (divIndex s.params (s.log.read a) (s.log.read b))) .ok := by
  rw [exec, execDiv, if_neg hb0, if_neg ha0, State.readLog_of_lt ha, State.readLog_of_lt hb]
  exact State.respondExp_of_lt (eucMod_lt _ (Params.ord_pos hp.1))

theorem exec_inv_of_ne_zero (ha : a < s.params.fs) (ha0 : a ≠ 0) :
    exec (.inv a) s = s.respond (s.exp.read (invIndex s.params (s.log.read a))) .ok := by
  rw [exec, execInv, if_neg ha0, State.readLog_of_lt ha]
  exact State.respondExp_of_lt (eucMod_lt _ (Params.ord_pos hp.1))

end

theorem exec_div_of_zero {b : Nat} (s : State) (hb : b ≠ 0) : exec (.div 0 b) s = s.respond 0 .ok := if_neg hb

/-! ### The calls of the source -/

/-- Without an error, the response maps back to its result. -/
theorem sourceValue_of_respond_ok {i : Instr} {s : State} {x : Nat} (h : exec i s = s.respond x .ok) :
    ∃ r, answer i s = some r ∧ sourceValue r = some (.ok r.result) :=
  ⟨⟨x, .ok⟩, by rw [answer_eq_responseOf, h]; rfl, rfl⟩

/-- Settles O23: the two error tests come first, and every other path responds without an error. -/
theorem sourceCallsFailExactlyOnTheirDomainErrors : Obligations.SourceCallsFailExactlyOnTheirDomainErrors := by
  intro s a b hs ha hb
  refine ⟨sourceValue_of_respond_ok (x := a ^^^ b) rfl, sourceValue_of_respond_ok (x := a ^^^ b) rfl, ?_, ?_, ?_⟩
  · by_cases h : a = 0 ∨ b = 0
    · exact sourceValue_of_respond_ok (exec_mul_of_zero s h)
    · obtain ⟨ha0, hb0⟩ := not_or.1 h
      exact sourceValue_of_respond_ok (exec_mul_of_ne_zero hs.legal ha hb ha0 hb0)
  · by_cases hb0 : b = 0
    · subst hb0
      exact ⟨⟨0, .edivz⟩, rfl, rfl⟩
    · simp only [if_neg hb0]
      by_cases ha0 : a = 0
      · subst ha0
        exact sourceValue_of_respond_ok (exec_div_of_zero s hb0)
      · exact sourceValue_of_respond_ok (exec_div_of_ne_zero hs.legal ha hb ha0 hb0)
  · by_cases ha0 : a = 0
    · subst ha0
      exact ⟨⟨0, .einvz⟩, rfl, rfl⟩
    · simp only [if_neg ha0]
      exact sourceValue_of_respond_ok (exec_inv_of_ne_zero hs.legal ha ha0)

end Sys2Proof.Machine
end

section
/-! PROOFS. The statements of spec/40_construction.md: the raw multiplier (R84 to R86), its meaning modulo PRIM_POLY,
and what the construction leaves in the two tables, primitive or not (R83, R87, R89, R90). -/

namespace Sys2Proof

theorem Params.ord_of_degree_one {p : Params} (h : p.m = 1) : p.ord = 1 := by
  rw [Params.ord, Params.fs, h, pow_one]

/-! ### Elements as polynomials over GF(2) -/

open Polynomial

@[simp] theorem polyOf_zero : polyOf 0 = 0 := by simp [polyOf]

/-- The lowest bit is the constant term, and the others are the polynomial of the halved number, moved up. -/
theorem polyOf_eq_bit (n : Nat) : polyOf n = (if n % 2 = 1 then 1 else 0) + X * polyOf (n / 2) := by
  ext i
  cases i with
  | zero =>
    rw [coeff_polyOf, Nat.testBit_zero, coeff_add, coeff_X_mul_zero, add_zero, apply_ite (coeff · 0)]
    simp
  | succ i =>
    rw [coeff_polyOf, Nat.testBit_succ, coeff_add, coeff_X_mul, coeff_polyOf, apply_ite (coeff · (i + 1))]
    simp [coeff_one]

@[simp] theorem polyOf_one : polyOf 1 = 1 := by simp [polyOf_eq_bit 1]

theorem polyOf_double (a : Nat) : polyOf (2 * a) = X * polyOf a := by simp [polyOf_eq_bit (2 * a)]

theorem polyOf_injective : Function.Injective polyOf := by
  intro a b h
  refine Nat.eq_of_testBit_eq fun i => ?_
  have hcoeff : (if a.testBit i then 1 else 0 : ZMod 2) = if b.testBit i then 1 else 0 := by
    rw [← coeff_polyOf, ← coeff_polyOf, h]
  revert hcoeff
  cases a.testBit i <;> cases b.testBit i <;> decide

theorem degree_polyOf_lt {x n : Nat} (h : x < 2 ^ n) : (polyOf x).degree < n := by
  rw [degree_lt_iff_coeff_zero]
  intro i hi
  simp [coeff_polyOf, Nat.testBit_lt_two_pow (h.trans_le (Nat.pow_le_pow_right (by decide) hi))]

section
variable {p : Params} (hp : p.Legal)
include hp

/-- A legal PRIM_POLY has its highest bit at M. -/
theorem Params.Legal.coeff_poly : (polyOf p.poly).coeff p.m = 1 := by
  obtain ⟨-, -, hlo, hhi, -⟩ := hp
  rw [coeff_polyOf, Nat.testBit_of_two_pow_le_and_two_pow_add_one_gt hlo hhi, if_pos rfl]

theorem Params.Legal.degree_poly : (polyOf p.poly).degree = p.m := by
  have htop : (polyOf p.poly).coeff p.m ≠ 0 := hp.coeff_poly ▸ one_ne_zero
  obtain ⟨-, -, -, hhi, -⟩ := hp
  have hne : polyOf p.poly ≠ 0 := fun h => htop (by rw [h, coeff_zero])
  have hlt : (polyOf p.poly).natDegree < p.m + 1 := (natDegree_lt_iff_degree_lt hne).2 (degree_polyOf_lt hhi)
  exact degree_eq_of_le_of_coeff_ne_zero (degree_le_of_natDegree_le (Nat.le_of_lt_succ hlt)) htop

theorem Params.Legal.monic_poly : (polyOf p.poly).Monic := monic_of_degree_le p.m hp.degree_poly.le hp.coeff_poly

end

namespace Machine

/-! ### The loop of the raw multiplier (R84) -/

theorem shiftLeft_one_eq (a : Nat) : a <<< 1 = 2 * a := by rw [Nat.shiftLeft_eq, pow_one, Nat.mul_comm]

/-- Only bit M of the doubled `a` decides the reduction. -/
theorem mulAdvance_eq (p : Params) (a : Nat) :
    mulAdvance p a = if (2 * a).testBit p.m then (2 * a) ^^^ p.poly else 2 * a := by
  rw [mulAdvance, shiftLeft_one_eq, Params.fs, Nat.and_two_pow]
  cases (2 * a).testBit p.m <;> simp

/-- The accumulator enters the result by exclusive or alone, so the loop may as well start from 0. -/
theorem mulLoop_result (p : Params) (fuel a b result : Nat) :
    mulLoop p fuel a b result = result ^^^ mulLoop p fuel a b 0 := by
  induction fuel generalizing a b result with
  | zero => simp [mulLoop]
  | succ fuel ih =>
    rw [mulLoop, mulLoop]
    split
    · rw [Nat.xor_zero]
    · rw [ih, ih (result := if b &&& 1 = 1 then 0 ^^^ a else 0)]
      split
      · rw [Nat.zero_xor, Nat.xor_assoc]
      · rw [Nat.zero_xor]

@[simp] theorem mulRaw_zero_right (p : Params) (a : Nat) : mulRaw p a 0 = 0 := mulLoop_zero p _ a 0

theorem mulRaw_of_ne_zero (p : Params) (a : Nat) {b : Nat} (hb : b ≠ 0) :
    mulRaw p a b = (if b % 2 = 1 then a else 0) ^^^ mulRaw p (mulAdvance p a) (b / 2) := by
  have hfuel : b / 2 < 2 ^ Nat.log2 b := by
    have : b < 2 ^ (Nat.log2 b + 1) := Nat.lt_log2_self
    omega
  rw [mulRaw, mulLoop, if_neg hb, mulLoop_result, Nat.shiftRight_one, mulLoop_eq_mulRaw p _ hfuel, Nat.and_one_is_mod,
    Nat.zero_xor]

/-- Settles O24: the loop's one iteration, with the accumulator taken out of it. -/
theorem multiplyRawShiftsReducesAndAccumulates : Obligations.MultiplyRawShiftsReducesAndAccumulates := by
  intro p a b
  refine ⟨mulRaw_zero_right p a, fun hb => ?_⟩
  rw [mulRaw_of_ne_zero p a hb, mulAdvance_eq]

@[simp] theorem mulAdvance_zero (p : Params) : mulAdvance p 0 = 0 := by simp [mulAdvance_eq]

@[simp] theorem mulRaw_zero_left (p : Params) (b : Nat) : mulRaw p 0 b = 0 := by
  induction b using Nat.strongRecOn with
  | ind b ih =>
    by_cases hb : b = 0
    · rw [hb, mulRaw_zero_right]
    · rw [mulRaw_of_ne_zero p 0 hb, mulAdvance_zero, ih _ (by omega), ite_self, Nat.xor_zero]

@[simp] theorem mulRaw_one (p : Params) (a : Nat) : mulRaw p a 1 = a := by
  rw [mulRaw_of_ne_zero p a Nat.one_ne_zero]
  simp

/-- The product with the generator (R83). -/
@[simp] theorem mulRaw_two (p : Params) (a : Nat) : mulRaw p a 2 = mulAdvance p a := by
  rw [mulRaw_of_ne_zero p a two_ne_zero]
  simp

/-- Settles O25: every bound that `b` fits in bits runs the loop to its end, and `2 < 2 ^ 2`. -/
theorem multiplyRawStaysBelowFieldSize : Obligations.MultiplyRawStaysBelowFieldSize := by
  intro p a b fuel hp ha
  refine ⟨mulAdvance_lt hp ha, mulRaw_lt hp b ha, fun hfuel => ?_, mulLoop_eq_mulRaw p a,
    mulLoop_eq_mulRaw p a (by decide), mulRaw_zero_right p a, mulRaw_zero_left p b, mulRaw_one p a⟩
  have : b < 2 ^ (Nat.log2 b + 1) := Nat.lt_log2_self
  exact mulLoop_eq_mulRaw p a (this.trans_le (Nat.pow_le_pow_right (by decide) hfuel))

/-! ### Elements modulo PRIM_POLY (R86) -/

@[simp] theorem polyOf_generator : polyOf generator = X := by simp [generator, polyOf_eq_bit 2]

theorem polyOf_mulAdvance (p : Params) (a : Nat) :
    polyOf (mulAdvance p a) = X * polyOf a + if (2 * a).testBit p.m then polyOf p.poly else 0 := by
  rw [mulAdvance_eq]
  split
  · rw [polyOf_xor, polyOf_double]
  · rw [polyOf_double, add_zero]

theorem dvd_mul_sub_mulAdvance (p : Params) (a : Nat) : polyOf p.poly ∣ X * polyOf a - polyOf (mulAdvance p a) := by
  rw [polyOf_mulAdvance, sub_add_cancel_left, dvd_neg]
  split
  · exact dvd_rfl
  · exact dvd_zero _

/-- The raw product is congruent to the product, for every PRIM_POLY and all operands: by the loop's iterations. -/
theorem dvd_mul_sub_mulRaw (p : Params) (a b : Nat) :
    polyOf p.poly ∣ polyOf a * polyOf b - polyOf (mulRaw p a b) := by
  induction b using Nat.strongRecOn generalizing a with
  | ind b ih =>
    by_cases hb : b = 0
    · simp [hb]
    · have hbit : polyOf (if b % 2 = 1 then a else 0) = polyOf a * (if b % 2 = 1 then 1 else 0) := by split <;> simp
      have hstep : polyOf a * polyOf b - polyOf (mulRaw p a b) =
          (X * polyOf a - polyOf (mulAdvance p a)) * polyOf (b / 2) +
            (polyOf (mulAdvance p a) * polyOf (b / 2) - polyOf (mulRaw p (mulAdvance p a) (b / 2))) := by
        rw [mulRaw_of_ne_zero p a hb, polyOf_xor, hbit, polyOf_eq_bit b]
        ring
      rw [hstep]
      exact dvd_add ((dvd_mul_sub_mulAdvance p a).mul_right _) (ih _ (by omega) _)

section
variable {p : Params} (hp : p.Legal)
include hp

/-- An element is the remainder of every polynomial it is congruent to. -/
theorem polyOf_eq_modByMonic {x : Nat} (hx : x < p.fs) {f : (ZMod 2)[X]} (h : polyOf p.poly ∣ f - polyOf x) :
    polyOf x = f %ₘ polyOf p.poly := by
  rw [modByMonic_eq_of_dvd_sub hp.monic_poly h, (modByMonic_eq_self_iff hp.monic_poly).2]
  exact (degree_polyOf_lt hx).trans_eq hp.degree_poly.symm

theorem polyOf_mulRaw {a : Nat} (b : Nat) (ha : a < p.fs) :
    polyOf (mulRaw p a b) = (polyOf a * polyOf b) %ₘ polyOf p.poly :=
  polyOf_eq_modByMonic hp (mulRaw_lt hp b ha) (dvd_mul_sub_mulRaw p a b)

theorem mulRaw_comm {a b : Nat} (ha : a < p.fs) (hb : b < p.fs) : mulRaw p a b = mulRaw p b a :=
  polyOf_injective (by rw [polyOf_mulRaw hp b ha, polyOf_mulRaw hp a hb, mul_comm])

end

/-- Settles O27: the raw product is congruent to the product, and its degree is below that of PRIM_POLY. -/
theorem multiplyRawIsTheRemainderOfTheProduct : Obligations.MultiplyRawIsTheRemainderOfTheProduct :=
  fun _ _ b hp ha hb => ⟨polyOf_mulRaw hp b ha, mulRaw_comm hp ha hb⟩

/-! ### The tables of every legal polynomial (R83, R87, R90) -/

theorem expRom_read_of_lt {p : Params} {i : Nat} (h : i < p.ord) : (expRom p).read i = power p i := by
  rw [expRom_read, if_pos h]

theorem expRom_read_copy {p : Params} {i : Nat} (h : i < p.ord) : (expRom p).read (i + p.ord) = power p i := by
  rw [expRom_read, if_neg (by omega), if_pos (by omega), Nat.add_sub_cancel]

theorem expRom_read_of_le {p : Params} {i : Nat} (h : 2 * p.ord ≤ i) : (expRom p).read i = 0 := by
  rw [expRom_read, if_neg (by omega), if_neg (by omega)]

theorem expRom_read_zero {p : Params} (hp : p.Legal) : (expRom p).read 0 = 1 :=
  expRom_read_of_lt (Params.ord_pos hp.1)

/-- Settles O29: EXP holds the powers twice and then two zeros; both bounds hold of every entry. -/
theorem romContentsForEveryLegalPolynomial : Obligations.RomContentsForEveryLegalPolynomial := by
  intro p hp
  have hord := p.ord_succ
  refine ⟨expRom_read_zero hp, expRom_read_lt hp, fun i hi => ?_, by omega,
    ⟨expRom_read_of_le (by omega), expRom_read_of_le (by omega)⟩, logRom_read_lt hp⟩
  rw [expRom_read_copy hi, expRom_read_of_lt hi]

theorem logRom_read_of_unreached {p : Params} {y : Nat} (h : ∀ i < p.ord, (expRom p).read i ≠ y) :
    (logRom p).read y = 0 :=
  Tables.after_log_read_unwritten p fun i hi => expRom_read_of_lt hi ▸ h i hi

/-- The last iteration at which `x` was a value is the one `LOG` keeps. -/
theorem Tables.after_log_read_power (p : Params) {n i : Nat} (hi : i < n)
    (hlast : ∀ j < n, i < j → power p j ≠ power p i) : (Tables.after p n).log.read (power p i) = i := by
  induction n with
  | zero => omega
  | succ n ih =>
    rw [Tables.after_log_read_succ]
    by_cases h : i = n
    · rw [h, if_pos rfl]
    · rw [if_neg (hlast n (by omega) (by omega)).symm]
      exact ih (by omega) fun j hj => hlast j (by omega)

theorem logRom_read_expRom_of_last {p : Params} {i : Nat} (hi : i < p.ord)
    (hlast : ∀ j < p.ord, i < j → (expRom p).read j ≠ (expRom p).read i) :
    (logRom p).read ((expRom p).read i) = i := by
  rw [expRom_read_of_lt hi] at hlast ⊢
  exact Tables.after_log_read_power p hi fun j hj hij => expRom_read_of_lt hj ▸ hlast j hj hij

theorem dvd_X_pow_sub_power (p : Params) (i : Nat) : polyOf p.poly ∣ X ^ i - polyOf (power p i) := by
  induction i with
  | zero => simp
  | succ i ih =>
    have hstep : X ^ (i + 1) - polyOf (power p (i + 1)) =
        (X ^ i - polyOf (power p i)) * X + (polyOf (power p i) * polyOf generator - polyOf (power p (i + 1))) := by
      rw [polyOf_generator]
      ring
    rw [hstep]
    exact dvd_add (ih.mul_right X) (dvd_mul_sub_mulRaw p _ generator)

theorem polyOf_power {p : Params} (hp : p.Legal) (i : Nat) : polyOf (power p i) = X ^ i %ₘ polyOf p.poly :=
  polyOf_eq_modByMonic hp (power_lt hp i) (dvd_X_pow_sub_power p i)

/-- Settles O31: each iteration multiplies by x, and a later write to `LOG` replaces an earlier one. -/
theorem romsHoldPowersAndLastIterations : Obligations.RomsHoldPowersAndLastIterations := by
  intro p hp
  refine ⟨fun i hi => ?_, fun i => logRom_read_expRom_of_last, fun y => logRom_read_of_unreached⟩
  rw [expRom_read_of_lt hi, polyOf_power hp]

/-- Both legal polynomials of degree 1 give the tables of GF(2): the loop's one iteration stores 1. -/
theorem primitive_of_degree_one {p : Params} (hp : p.Legal) (hm : p.m = 1) : Primitive p := by
  have hord := Params.ord_of_degree_one hm
  refine ⟨fun i hi => ?_, fun i hi j hj _ => by omega⟩
  obtain rfl : i = 0 := by omega
  rw [expRom_read_zero hp]
  exact one_ne_zero

/-- Settles O28: bit M of the doubled `x` is bit M-1 of `x`; for M = 1 the tables are read entry by entry. -/
theorem generatorStepIsOneShiftAndReduction : Obligations.GeneratorStepIsOneShiftAndReduction := by
  intro p x hp
  refine ⟨fun hm _ => ?_, fun hm => ⟨?_, primitive_of_degree_one hp hm⟩⟩
  · have hbit : (2 * x).testBit p.m = x.testBit (p.m - 1) := by
      obtain ⟨k, hk⟩ : ∃ k, p.m = k + 1 := ⟨p.m - 1, by omega⟩
      rw [hk, Nat.testBit_succ, Nat.mul_div_cancel_left x two_pos, Nat.add_sub_cancel]
    rw [mulRaw_two, mulAdvance_eq, hbit, shiftLeft_one_eq]
    split
    · rfl
    · rw [Nat.xor_zero]
  · have hord := Params.ord_of_degree_one hm
    have hcopy : (expRom p).read (0 + p.ord) = 1 := expRom_read_copy (by omega)
    rw [Nat.zero_add, hord] at hcopy
    have hlog (y : Nat) : (logRom p).read y = 0 := by have := logRom_read_lt hp y; omega
    exact ⟨expRom_read_zero hp, hcopy, expRom_read_of_le (by omega), expRom_read_of_le (by omega), hlog 0, hlog 1⟩

/-! ### The tables under PRIMITIVE (R89) -/

section
variable {p : Params} (hprim : Primitive p)
include hprim

theorem Primitive.expRom_pos {i : Nat} (hi : i < p.ord) : 0 < (expRom p).read i := Nat.pos_of_ne_zero (hprim.1 i hi)

/-- No value occurs twice, so the iteration that `LOG` keeps is the only one. -/
theorem Primitive.logRom_expRom {i : Nat} (hi : i < p.ord) : (logRom p).read ((expRom p).read i) = i :=
  logRom_read_expRom_of_last hi fun j hj hij h => hij.ne' (hprim.2 j hj i hi h)

/-- ORD distinct values among the ORD nonzero elements are all of them. -/
theorem Primitive.exists_expRom_eq (hp : p.Legal) {y : Nat} (hy0 : 0 < y) (hy : y < p.fs) :
    ∃ i < p.ord, (expRom p).read i = y := by
  have hmaps : Set.MapsTo (expRom p).read (Finset.range p.ord) (Finset.Ico 1 p.fs) := fun i hi =>
    Finset.mem_coe.2 (Finset.mem_Ico.2 ⟨hprim.expRom_pos (Finset.mem_range.1 hi), expRom_read_lt hp i⟩)
  have hinj : Set.InjOn (expRom p).read (Finset.range p.ord) := fun i hi j hj =>
    hprim.2 i (Finset.mem_range.1 hi) j (Finset.mem_range.1 hj)
  have hcard : (Finset.Ico 1 p.fs).card ≤ (Finset.range p.ord).card := by
    rw [Nat.card_Ico, Finset.card_range, Params.ord]
  obtain ⟨i, hi, h⟩ :=
    Finset.surjOn_of_injOn_of_card_le _ hmaps hinj hcard (Finset.mem_coe.2 (Finset.mem_Ico.2 ⟨hy0, hy⟩))
  exact ⟨i, Finset.mem_range.1 hi, h⟩

theorem Primitive.expRom_logRom (hp : p.Legal) {y : Nat} (hy0 : 0 < y) (hy : y < p.fs) :
    (expRom p).read ((logRom p).read y) = y := by
  obtain ⟨i, hi, rfl⟩ := hprim.exists_expRom_eq hp hy0 hy
  rw [hprim.logRom_expRom hi]

theorem Primitive.logRom_zero : (logRom p).read 0 = 0 := logRom_read_of_unreached hprim.1

theorem Primitive.logRom_one (hp : p.Legal) : (logRom p).read 1 = 0 := by
  rw [← expRom_read_zero hp, hprim.logRom_expRom (Params.ord_pos hp.1)]

/-- For M at least 2, the first product with the generator needs no reduction. -/
theorem Primitive.logRom_two (hm : 2 ≤ p.m) : (logRom p).read 2 = 1 := by
  have hord : 1 < p.ord := by
    have : 2 ^ 2 ≤ p.fs := Nat.pow_le_pow_right (by decide) hm
    have := p.ord_succ
    omega
  have htwo : power p 1 = 2 := by
    have hbit : (2 * 1).testBit p.m = false :=
      Nat.testBit_lt_two_pow (Nat.lt_of_lt_of_le (by decide) (Nat.pow_le_pow_right (by decide) hm))
    rw [power_succ, power_zero, generator, mulRaw_two, mulAdvance_eq, hbit]
    rfl
  rw [← htwo, ← expRom_read_of_lt hord, hprim.logRom_expRom hord]

end

/-- Settles O30: under PRIMITIVE the two tables are inverse bijections between [0, ORD) and the nonzero elements. -/
theorem romsHoldDiscreteLogarithmsUnderPrimitive : Obligations.RomsHoldDiscreteLogarithmsUnderPrimitive := by
  intro p hp hprim
  refine ⟨⟨fun y hy0 hy => ?_, fun i hi => ⟨hprim.expRom_pos hi, expRom_read_lt hp i⟩⟩,
    ⟨fun i => hprim.logRom_expRom, fun y => hprim.expRom_logRom hp⟩, hprim.logRom_zero,
    ⟨hprim.logRom_one hp, hprim.logRom_two⟩, fun i hi => ?_, fun y _ _ => logRom_read_lt hp y⟩
  · obtain ⟨i, hi, rfl⟩ := hprim.exists_expRom_eq hp hy0 hy
    exact ⟨i, ⟨hi, rfl⟩, fun j ⟨hj, h⟩ => hprim.2 j hj i hi h⟩
  · refine ⟨(expRom p).read i, ⟨hprim.expRom_pos hi, expRom_read_lt hp i, hprim.logRom_expRom hi⟩, ?_⟩
    rintro y ⟨hy0, hy, rfl⟩
    exact (hprim.expRom_logRom hp hy0 hy).symm

end Machine

end Sys2Proof
end

section
/-! PROOFS. The table indices of MUL, DIV and INV, with and without their last reduction, and what ADD, SUB, MUL, DIV and
INV answer, primitive or not (spec/41_field_arithmetic.md R100 to R103, R105, R106, R108). -/

namespace Sys2Proof.Machine

/-! ### Indices into the doubled table -/

/-- Below twice the modulus, one conditional subtraction reduces. -/
theorem mod_eq_ite_of_lt_double {k n : Nat} (h : k < 2 * n) : k % n = if n ≤ k then k - n else k := by
  split
  · next hk => rw [Nat.mod_eq_sub_mod hk, Nat.mod_eq_of_lt (by omega)]
  · next hk => exact Nat.mod_eq_of_lt (Nat.not_le.1 hk)

theorem eucMod_natCast (k n : Nat) : eucMod k n = k % n := by
  rw [eucMod, ← Int.natCast_emod, Int.toNat_natCast]

/-- A multiple of the modulus may be added before the reduction, so that no negative number is left. -/
theorem eucMod_add_self (x : Int) (n : Nat) : eucMod (x + n) n = eucMod x n := by
  rw [eucMod, Int.add_emod_right, eucMod]

theorem mulIndex_eq_mod (p : Params) (la lb : Nat) : mulIndex p la lb = mulIndexDoubled la lb % p.ord := rfl

theorem divIndex_eq_mod {p : Params} (la : Nat) {lb : Nat} (h : lb ≤ p.ord) :
    divIndex p la lb = divIndexDoubled p la lb % p.ord := by
  have hsum : (la : Int) - lb + p.ord = (divIndexDoubled p la lb : Nat) := by rw [divIndexDoubled]; omega
  rw [divIndex, ← eucMod_add_self, hsum, eucMod_natCast]

theorem invIndex_eq_mod {p : Params} {la : Nat} (h : la ≤ p.ord) : invIndex p la = invIndexDoubled p la % p.ord := by
  have hsum : (0 : Int) - la + p.ord = (invIndexDoubled p la : Nat) := by rw [invIndexDoubled]; omega
  rw [invIndex, ← eucMod_add_self, hsum, eucMod_natCast]

theorem mulIndexDoubled_lt {n la lb : Nat} (hla : la < n) (hlb : lb < n) : mulIndexDoubled la lb < 2 * n := by
  rw [mulIndexDoubled]; omega

theorem divIndexDoubled_lt {p : Params} {la : Nat} (hla : la < p.ord) (lb : Nat) :
    divIndexDoubled p la lb < 2 * p.ord := by
  rw [divIndexDoubled]; omega

theorem invIndexDoubled_lt {p : Params} {la : Nat} (hla : la < p.ord) : invIndexDoubled p la < 2 * p.ord := by
  rw [invIndexDoubled]; omega

/-- Only `ORD` itself wraps. -/
theorem invIndex_eq_ite {p : Params} {la : Nat} (h : la < p.ord) :
    invIndex p la = if la = 0 then 0 else p.ord - la := by
  rw [invIndex_eq_mod h.le, mod_eq_ite_of_lt_double (invIndexDoubled_lt h), invIndexDoubled]
  split_ifs <;> omega

/-- The upper half of `EXP` repeats the lower one. -/
theorem expRom_read_mod {p : Params} {k : Nat} (h : k < 2 * p.ord) :
    (expRom p).read (k % p.ord) = (expRom p).read k := by
  rw [mod_eq_ite_of_lt_double h]
  split
  · next hk => rw [expRom_read_of_lt (by omega), ← expRom_read_copy (by omega), Nat.sub_add_cancel hk]
  · rfl

theorem expRom_read_invIndex {p : Params} {la : Nat} (h : la < p.ord) :
    (expRom p).read (invIndex p la) = (expRom p).read (invIndexDoubled p la) := by
  rw [invIndex_eq_mod h.le, expRom_read_mod (invIndexDoubled_lt h)]

/-- Settles O32: every index is the doubled table's index reduced once, and the table repeats after ORD entries. -/
theorem doubledTableGivesTheSameEntries : Obligations.DoubledTableGivesTheSameEntries := by
  intro p la lb hp hla hlb
  have hmul := mulIndexDoubled_lt hla hlb
  have hdiv := divIndexDoubled_lt hla lb
  have hreduced := mod_eq_ite_of_lt_double hdiv
  rw [mulIndex_eq_mod, divIndex_eq_mod la hlb.le]
  refine ⟨⟨by omega, mod_eq_ite_of_lt_double hmul, (expRom_read_mod hmul).symm⟩,
    ⟨Nat.mod_lt _ (Params.ord_pos hp.1), ?_, by rw [divIndexDoubled]; omega, by omega, hreduced,
      (expRom_read_mod hdiv).symm⟩,
    by rw [invIndexDoubled]; omega, by rw [invIndexDoubled]; omega, (expRom_read_invIndex hla).symm⟩
  rw [hreduced, divIndexDoubled]
  split_ifs <;> omega

/-! ### ADD and SUB -/

theorem exec_add (a b : Nat) (s : State) : exec (.add a b) s = s.respond (a ^^^ b) .ok := rfl

theorem exec_sub (a b : Nat) (s : State) : exec (.sub a b) s = s.respond (a ^^^ b) .ok := rfl

/-- Settles O10: the response is the exclusive or, whose laws are the operation's. -/
theorem addAnswersTheExclusiveOr : Obligations.AddAnswersTheExclusiveOr := by
  intro s a b c
  refine ⟨exec_add a b s, ?_, ?_, ?_, ?_, Nat.xor_lt_two_pow, rfl, rfl⟩
  · rw [exec_add, Nat.xor_zero]; rfl
  · rw [exec_add, Nat.xor_self]; rfl
  · rw [exec_add, exec_add, Nat.xor_comm]
  · rw [exec_add, exec_add, Nat.xor_assoc]

/-- Settles O11: the response is ADD's. -/
theorem subAnswersWhatAddAnswers : Obligations.SubAnswersWhatAddAnswers := by
  intro s a b
  refine ⟨exec_sub a b s, rfl, ?_, ?_, rfl, rfl⟩
  · rw [exec_sub, exec_sub, Nat.xor_comm]
  · rw [exec_sub, Nat.xor_self]; rfl

/-! ### MUL, DIV and INV of a built block -/

section
variable {s : State} (hs : s.Built)
include hs

theorem State.Built.exp_read_zero : s.exp.read 0 = 1 := by rw [hs.exp_eq, expRom_read_zero hs.legal]

theorem State.Built.log_read_lt (y : Nat) : s.log.read y < s.params.ord := by
  rw [hs.log_eq]; exact logRom_read_lt hs.legal y

theorem State.Built.one_lt_fs : 1 < s.params.fs := Params.two_le_fs hs.legal.1

theorem State.Built.exec_mul_comm {a b : Nat} (ha : a < s.params.fs) (hb : b < s.params.fs) :
    exec (.mul a b) s = exec (.mul b a) s := by
  by_cases h : a = 0 ∨ b = 0
  · rw [exec_mul_of_zero s h, exec_mul_of_zero s h.symm]
  · obtain ⟨ha0, hb0⟩ := not_or.1 h
    rw [exec_mul_of_ne_zero hs.legal ha hb ha0 hb0, exec_mul_of_ne_zero hs.legal hb ha hb0 ha0, mulIndex, mulIndex,
      Nat.add_comm]

section
variable (hprim : Primitive s.params)
include hprim

theorem State.Built.log_read_one : s.log.read 1 = 0 := by rw [hs.log_eq, hprim.logRom_one hs.legal]

theorem State.Built.exp_read_log {a : Nat} (ha : a < s.params.fs) (ha0 : a ≠ 0) :
    s.exp.read (s.log.read a) = a := by
  rw [hs.exp_eq, hs.log_eq, hprim.expRom_logRom hs.legal (Nat.pos_of_ne_zero ha0) ha]

end

end

/-- Settles O12: the zero test and the table path exclude each other, and for M = 1 the only index is 0. -/
theorem mulAnswersTheTableProduct : Obligations.MulAnswersTheTableProduct := by
  intro s a b hs ha hb
  refine ⟨exec_mul_of_zero s, exec_mul_of_ne_zero hs.legal ha hb, hs.exec_mul_comm ha hb, fun hm => ?_, rfl, rfl⟩
  rw [exec_mul_of_ne_zero hs.legal hs.one_lt_fs hs.one_lt_fs one_ne_zero one_ne_zero, mulIndex,
    Params.ord_of_degree_one hm, Nat.mod_one, hs.exp_read_zero]
  rfl

/-- Settles O13: the divisor is tested first; under PRIMITIVE equal logarithms cancel, and the logarithm of 1 is 0. -/
theorem divAnswersTheTableQuotientOrDivisionByZero : Obligations.DivAnswersTheTableQuotientOrDivisionByZero := by
  intro s a b hs ha hb
  refine ⟨fun hb0 => if_pos hb0, fun hb0 ha0 => ha0 ▸ exec_div_of_zero s hb0,
    fun hb0 ha0 => exec_div_of_ne_zero hs.legal ha hb ha0 hb0, fun hprim => ⟨fun ha0 => ?_, ?_⟩, rfl, rfl⟩
  · rw [exec_div_of_ne_zero hs.legal ha ha ha0 ha0, divIndex, sub_self, ← Nat.cast_zero, eucMod_natCast, Nat.zero_mod,
      hs.exp_read_zero]
    rfl
  · by_cases ha0 : a = 0
    · exact ha0 ▸ exec_div_of_zero s one_ne_zero
    · rw [exec_div_of_ne_zero hs.legal ha hs.one_lt_fs ha0 one_ne_zero, hs.log_read_one hprim, divIndex, Nat.cast_zero,
        sub_zero, eucMod_natCast, Nat.mod_eq_of_lt (hs.log_read_lt a), hs.exp_read_log hprim ha ha0]
      rfl

/-- Settles O14: the reduced index is 0 or the unreduced one, and both name the same entry. -/
theorem invAnswersTheTableInverseOrInverseOfZero : Obligations.InvAnswersTheTableInverseOrInverseOfZero := by
  intro s a b hs ha
  have hlog := hs.log_read_lt a
  refine ⟨fun ha0 => ?_, fun ha0 => if_pos ha0, fun ha0 => ⟨?_, by omega, by omega⟩, fun hprim => ?_, rfl, ?_⟩
  · rw [exec_inv_of_ne_zero hs.legal ha ha0, invIndex_eq_ite hlog]; rfl
  · have hentry : s.exp.read (invIndex s.params (s.log.read a)) = s.exp.read (s.params.ord - s.log.read a) := by
      rw [hs.exp_eq, expRom_read_invIndex hlog, invIndexDoubled]
    rw [exec_inv_of_ne_zero hs.legal ha ha0, hentry]; rfl
  · rw [exec_inv_of_ne_zero hs.legal hs.one_lt_fs one_ne_zero, hs.log_read_one hprim,
      invIndex_eq_ite (Params.ord_pos hs.legal.1), if_pos rfl, hs.exp_read_zero]
    rfl
  · rw [encode, Request.toWord, Instr.request, Instr.fieldB, Nat.zero_shiftLeft, Nat.or_zero]; rfl

end Sys2Proof.Machine
end

section
/-! PROOFS. The field laws of MUL, DIV and INV under PRIMITIVE (spec/41_field_arithmetic.md R104, R107, R109, R110).  The
raw product satisfies the ring laws for every legal PRIM_POLY, and under PRIMITIVE the table product is the raw one;
division and inversion are laws of the indices. -/

namespace Sys2Proof.Machine

open Polynomial

/-! ### The raw product as a ring product, primitive or not -/

section
variable {p : Params} (hp : p.Legal)
include hp

theorem mulRaw_assoc {a : Nat} (b c : Nat) (ha : a < p.fs) :
    mulRaw p (mulRaw p a b) c = mulRaw p a (mulRaw p b c) := by
  have hab := mulRaw_lt hp b ha
  have hleft : polyOf p.poly ∣ polyOf a * polyOf b * polyOf c - polyOf (mulRaw p (mulRaw p a b) c) := by
    rw [← sub_add_sub_cancel _ (polyOf (mulRaw p a b) * polyOf c), ← sub_mul]
    exact dvd_add ((dvd_mul_sub_mulRaw p a b).mul_right _) (dvd_mul_sub_mulRaw p _ c)
  have hright : polyOf p.poly ∣ polyOf a * polyOf b * polyOf c - polyOf (mulRaw p a (mulRaw p b c)) := by
    rw [← sub_add_sub_cancel _ (polyOf a * polyOf (mulRaw p b c)), mul_assoc, ← mul_sub]
    exact dvd_add ((dvd_mul_sub_mulRaw p b c).mul_left _) (dvd_mul_sub_mulRaw p a _)
  refine polyOf_injective ?_
  rw [polyOf_eq_modByMonic hp (mulRaw_lt hp c hab) hleft, polyOf_eq_modByMonic hp (mulRaw_lt hp _ ha) hright]

theorem mulRaw_xor_right {a : Nat} (b c : Nat) (ha : a < p.fs) :
    mulRaw p a (b ^^^ c) = mulRaw p a b ^^^ mulRaw p a c := by
  refine polyOf_injective ?_
  rw [polyOf_xor, polyOf_mulRaw hp _ ha, polyOf_mulRaw hp _ ha, polyOf_mulRaw hp _ ha, polyOf_xor, mul_add,
    add_modByMonic]

theorem mulRaw_xor_left {a b c : Nat} (ha : a < p.fs) (hb : b < p.fs) (hc : c < p.fs) :
    mulRaw p (a ^^^ b) c = mulRaw p a c ^^^ mulRaw p b c := by
  rw [mulRaw_comm hp (Nat.xor_lt_two_pow ha hb) hc, mulRaw_xor_right hp a b hc, mulRaw_comm hp hc ha,
    mulRaw_comm hp hc hb]

theorem mulRaw_power_power (i j : Nat) : mulRaw p (power p i) (power p j) = power p (i + j) := by
  induction j with
  | zero => rw [power_zero, mulRaw_one, Nat.add_zero]
  | succ j ih => rw [power_succ, ← mulRaw_assoc hp _ _ (power_lt hp i), ih, ← Nat.add_assoc, power_succ]

end

/-! ### The laws of the indices -/

theorem mulIndex_lt {p : Params} (hp : p.Legal) (la lb : Nat) : mulIndex p la lb < p.ord :=
  Nat.mod_lt _ (Params.ord_pos hp.1)

theorem divIndex_lt {p : Params} (hp : p.Legal) (la lb : Nat) : divIndex p la lb < p.ord :=
  eucMod_lt _ (Params.ord_pos hp.1)

section
variable {p : Params} {la lb : Nat} (hla : la < p.ord)
include hla

theorem mulIndex_divIndex (hlb : lb < p.ord) : mulIndex p (divIndex p la lb) lb = la := by
  rw [divIndex_eq_mod la hlb.le, divIndexDoubled, mulIndex, Nat.mod_add_mod, Nat.add_assoc, Nat.sub_add_cancel hlb.le,
    Nat.add_mod_right, Nat.mod_eq_of_lt hla]

theorem mulIndex_invIndex : mulIndex p la (invIndex p la) = 0 := by
  rw [invIndex_eq_mod hla.le, invIndexDoubled, mulIndex, Nat.add_mod_mod, Nat.add_sub_cancel' hla.le, Nat.mod_self]

theorem invIndex_lt : invIndex p la < p.ord := eucMod_lt _ (Nat.zero_lt_of_lt hla)

theorem invIndex_invIndex : invIndex p (invIndex p la) = la := by
  rw [invIndex_eq_ite (invIndex_lt hla), invIndex_eq_ite hla]
  split_ifs <;> omega

/-- Fermat's exponent: multiplying an index by `ORD - 1` negates it. -/
theorem mul_mod_eq_invIndex : (p.ord - 1) * la % p.ord = invIndex p la := by
  rw [invIndex_eq_ite hla]
  split
  · next h0 => rw [h0, Nat.mul_zero, Nat.zero_mod]
  · next h0 =>
    rw [Nat.mod_eq_sub_iff (Nat.pos_of_ne_zero h0) hla.le, ← Nat.succ_mul, Nat.succ_eq_add_one,
      Nat.sub_add_cancel (by omega)]
    exact Nat.dvd_mul_right _ _

end

theorem divIndex_eq_mulIndex_invIndex {p : Params} (la : Nat) {lb : Nat} (hlb : lb < p.ord) :
    divIndex p la lb = mulIndex p la (invIndex p lb) := by
  rw [divIndex_eq_mod la hlb.le, invIndex_eq_mod hlb.le, mulIndex, Nat.add_mod_mod, divIndexDoubled, invIndexDoubled]

/-! ### The order of the generator under PRIMITIVE -/

theorem two_le_m_of_one_lt_ord {p : Params} (hp : p.Legal) (h : 1 < p.ord) : 2 ≤ p.m := by
  by_contra hm
  have hm1 : p.m = 1 := by have := hp.1; omega
  rw [Params.ord_of_degree_one hm1] at h
  exact absurd h (by decide)

section
variable {p : Params} (hprim : Primitive p) (hp : p.Legal)
include hprim hp

theorem Primitive.exists_power_eq {y : Nat} (hy0 : y ≠ 0) (hy : y < p.fs) : ∃ i < p.ord, power p i = y := by
  obtain ⟨i, hi, h⟩ := hprim.exists_expRom_eq hp (Nat.pos_of_ne_zero hy0) hy
  exact ⟨i, hi, expRom_read_of_lt hi ▸ h⟩

/-- The generator divides 1: it divides `x + 1`, a power of it other than 1, and it divides itself. -/
theorem Primitive.exists_mulRaw_generator_eq_one (hm : 2 ≤ p.m) : ∃ z < p.fs, mulRaw p z generator = 1 := by
  have hfs : 2 ^ 2 ≤ p.fs := Nat.pow_le_pow_right (by decide) hm
  obtain ⟨k, -, hk⟩ := hprim.exists_power_eq hp (y := 3) (by decide) (by omega)
  cases k with
  | zero => exact absurd (power_zero p ▸ hk) (by decide)
  | succ k =>
    have hgen : generator < p.fs := lt_of_lt_of_le (by decide) hfs
    have hone : 1 < p.fs := by omega
    refine ⟨power p k ^^^ 1, Nat.xor_lt_two_pow (power_lt hp k) hone, ?_⟩
    rw [mulRaw_xor_left hp (power_lt hp k) hone hgen, ← power_succ, hk, mulRaw_comm hp hone hgen, mulRaw_one]
    rfl

/-- The powers return to 1 after ORD steps: the inverse of the generator is a power, and only the last can be followed
by a second 1, because `EXP` holds no value twice (spec/40_construction.md R88). -/
theorem Primitive.power_ord (hm : 2 ≤ p.m) : power p p.ord = 1 := by
  obtain ⟨z, hz, hzgen⟩ := hprim.exists_mulRaw_generator_eq_one hp hm
  have hz0 : z ≠ 0 := by
    rintro rfl
    rw [mulRaw_zero_left] at hzgen
    exact zero_ne_one hzgen
  obtain ⟨i, hi, rfl⟩ := hprim.exists_power_eq hp hz0 hz
  rw [← power_succ] at hzgen
  have hlast : ¬ i + 1 < p.ord := fun hlt => by
    have hrepeat : (expRom p).read (i + 1) = (expRom p).read 0 := by
      rw [expRom_read_of_lt hlt, hzgen, expRom_read_zero hp]
    exact Nat.succ_ne_zero i (hprim.2 _ hlt _ (Params.ord_pos hp.1) hrepeat)
  rwa [show p.ord = i + 1 by omega]

/-- The raw product of two entries of `EXP` adds their indices; for M = 1 the only index is 0, and no sum wraps. -/
theorem Primitive.mulRaw_expRom {i j : Nat} (hi : i < p.ord) (hj : j < p.ord) :
    mulRaw p ((expRom p).read i) ((expRom p).read j) = (expRom p).read (mulIndex p i j) := by
  rw [expRom_read_of_lt hi, expRom_read_of_lt hj, mulRaw_power_power hp,
    expRom_read_of_lt (mulIndex_lt hp i j), mulIndex, mod_eq_ite_of_lt_double (by omega)]
  split
  · next hwrap =>
    rw [← mulRaw_one p (power p (i + j - p.ord)), ← hprim.power_ord hp (two_le_m_of_one_lt_ord hp (by omega)),
      mulRaw_power_power hp, Nat.sub_add_cancel hwrap]
  · rfl

theorem Primitive.mulRaw_eq_zero_iff {a b : Nat} (ha : a < p.fs) (hb : b < p.fs) :
    mulRaw p a b = 0 ↔ a = 0 ∨ b = 0 := by
  refine ⟨fun h => ?_, ?_⟩
  · by_contra hne
    obtain ⟨ha0, hb0⟩ := not_or.1 hne
    obtain ⟨i, hi, rfl⟩ := hprim.exists_expRom_eq hp (Nat.pos_of_ne_zero ha0) ha
    obtain ⟨j, hj, rfl⟩ := hprim.exists_expRom_eq hp (Nat.pos_of_ne_zero hb0) hb
    rw [hprim.mulRaw_expRom hp hi hj] at h
    exact hprim.1 _ (mulIndex_lt hp i j) h
  · rintro (rfl | rfl)
    · exact mulRaw_zero_left p b
    · exact mulRaw_zero_right p a

end

/-! ### MUL, DIV and INV of entries of `EXP` -/

theorem answer_of_respond_ok {i : Instr} {s : State} {x : Nat} (h : exec i s = s.respond x .ok) :
    answer i s = some ⟨x, .ok⟩ := by
  rw [answer_eq_responseOf, h]; rfl

theorem resultOf_of_respond_ok {i : Instr} {s : State} {x : Nat} (h : exec i s = s.respond x .ok) :
    resultOf i s = x := by
  rw [resultOf, answer_of_respond_ok h]

theorem resultOf_mul_zero_left (b : Nat) (s : State) : resultOf (.mul 0 b) s = 0 :=
  resultOf_of_respond_ok (exec_mul_of_zero s (.inl rfl))

theorem exec_mulraw (a b : Nat) (s : State) : exec (.mulraw a b) s = s.respond (mulRaw s.params a b) .ok := rfl

theorem State.Built.exp_read_lt {s : State} (hs : s.Built) (k : Nat) : s.exp.read k < s.params.fs := by
  rw [hs.exp_eq]; exact expRom_read_lt hs.legal k

section
variable {s : State} (hs : s.Built) (hprim : Primitive s.params)
include hs hprim

theorem State.Built.exists_exp_eq {a : Nat} (ha : a < s.params.fs) (ha0 : a ≠ 0) :
    ∃ i < s.params.ord, s.exp.read i = a :=
  ⟨s.log.read a, hs.log_read_lt a, hs.exp_read_log hprim ha ha0⟩

/-- The table path and the reference multiplier agree. -/
theorem State.Built.exec_mul {a b : Nat} (ha : a < s.params.fs) (hb : b < s.params.fs) :
    exec (.mul a b) s = s.respond (mulRaw s.params a b) .ok := by
  by_cases h : a = 0 ∨ b = 0
  · rw [exec_mul_of_zero s h, (hprim.mulRaw_eq_zero_iff hs.legal ha hb).2 h]
  · obtain ⟨ha0, hb0⟩ := not_or.1 h
    rw [exec_mul_of_ne_zero hs.legal ha hb ha0 hb0, hs.exp_eq,
      ← hprim.mulRaw_expRom hs.legal (hs.log_read_lt a) (hs.log_read_lt b), ← hs.exp_eq, hs.exp_read_log hprim ha ha0,
      hs.exp_read_log hprim hb hb0]

theorem State.Built.resultOf_mul {a b : Nat} (ha : a < s.params.fs) (hb : b < s.params.fs) :
    resultOf (.mul a b) s = mulRaw s.params a b :=
  resultOf_of_respond_ok (hs.exec_mul hprim ha hb)

section
variable {i j : Nat} (hi : i < s.params.ord)
include hi

theorem State.Built.exp_read_ne_zero : s.exp.read i ≠ 0 := by rw [hs.exp_eq]; exact hprim.1 i hi

theorem State.Built.log_exp : s.log.read (s.exp.read i) = i := by rw [hs.log_eq, hs.exp_eq, hprim.logRom_expRom hi]

theorem State.Built.exec_inv_exp :
    exec (.inv (s.exp.read i)) s = s.respond (s.exp.read (invIndex s.params i)) .ok := by
  rw [exec_inv_of_ne_zero hs.legal (hs.exp_read_lt i) (hs.exp_read_ne_zero hprim hi), hs.log_exp hprim hi]

theorem State.Built.resultOf_inv_exp : resultOf (.inv (s.exp.read i)) s = s.exp.read (invIndex s.params i) :=
  resultOf_of_respond_ok (hs.exec_inv_exp hprim hi)

theorem State.Built.resultOf_mul_exp (hj : j < s.params.ord) :
    resultOf (.mul (s.exp.read i) (s.exp.read j)) s = s.exp.read (mulIndex s.params i j) := by
  rw [hs.resultOf_mul hprim (hs.exp_read_lt i) (hs.exp_read_lt j), hs.exp_eq,
    hprim.mulRaw_expRom hs.legal hi hj]

theorem State.Built.exec_div_exp (hj : j < s.params.ord) :
    exec (.div (s.exp.read i) (s.exp.read j)) s = s.respond (s.exp.read (divIndex s.params i j)) .ok := by
  rw [exec_div_of_ne_zero hs.legal (hs.exp_read_lt i) (hs.exp_read_lt j) (hs.exp_read_ne_zero hprim hi)
    (hs.exp_read_ne_zero hprim hj), hs.log_exp hprim hi, hs.log_exp hprim hj]

theorem State.Built.resultOf_div_exp (hj : j < s.params.ord) :
    resultOf (.div (s.exp.read i) (s.exp.read j)) s = s.exp.read (divIndex s.params i j) :=
  resultOf_of_respond_ok (hs.exec_div_exp hprim hi hj)

/-- Multiplying again and again by one element adds its index each time. -/
theorem State.Built.iterate_mul_exp (n : Nat) :
    (fun x => resultOf (.mul x (s.exp.read i)) s)^[n] (s.exp.read i) = s.exp.read ((n + 1) * i % s.params.ord) := by
  induction n with
  | zero => rw [Function.iterate_zero_apply, Nat.zero_add, Nat.one_mul, Nat.mod_eq_of_lt hi]
  | succ n ih =>
    rw [Function.iterate_succ_apply', ih, hs.resultOf_mul_exp hprim (Nat.mod_lt _ (Params.ord_pos hs.legal.1)) hi,
      mulIndex, Nat.mod_add_mod, ← Nat.succ_mul]

end

end

/-! ### The statements -/

/-- Settles O33: the ring laws are those of the raw product, and the other two those of the indices. -/
theorem multiplicationLawsUnderPrimitive : Obligations.MultiplicationLawsUnderPrimitive := by
  intro s hs hprim mul add a b c i j ha hb hc hi hj
  have hp := hs.legal
  have hmul {x y : Nat} (hx : x < s.params.fs) (hy : y < s.params.fs) : mul x y = mulRaw s.params x y :=
    hs.resultOf_mul hprim hx hy
  have hab := mulRaw_lt hp b ha
  have hbc := mulRaw_lt hp c hb
  refine ⟨?_, ?_, resultOf_mul_zero_left a s, ?_, ?_, ?_, ?_, hs.resultOf_mul_exp hprim hi hj⟩
  · rw [hmul ha hb]
    exact ⟨answer_of_respond_ok (hs.exec_mul hprim ha hb), hab⟩
  · rw [hmul ha hs.one_lt_fs, mulRaw_one]
  · rw [hmul ha hb, hmul hb ha, mulRaw_comm hp ha hb]
  · rw [hmul ha hb, hmul hb hc, hmul hab hc, hmul ha hbc, mulRaw_assoc hp b c ha]
  · simp only [add, resultOf_add]
    rw [hmul ha (Nat.xor_lt_two_pow hb hc), hmul ha hb, hmul ha hc, mulRaw_xor_right hp b c ha]
  · rw [hmul ha hb, hprim.mulRaw_eq_zero_iff hp ha hb]

/-- Settles O34: a nonzero quotient subtracts indices; 0 divided and 0 multiplied are 0. -/
theorem divisionLawsUnderPrimitive : Obligations.DivisionLawsUnderPrimitive := by
  intro s hs hprim mul div inv a b ha hb hb0
  obtain ⟨j, hj, rfl⟩ := hs.exists_exp_eq hprim hb hb0
  have hord := Params.ord_pos hs.legal.1
  have hzero : div 0 (s.exp.read j) = 0 := resultOf_of_respond_ok (exec_div_of_zero s hb0)
  have hone : div 1 (s.exp.read j) = inv (s.exp.read j) := by
    simp only [div, inv]
    rw [← hs.exp_read_zero, hs.resultOf_div_exp hprim hord hj, hs.resultOf_inv_exp hprim hj]
    rfl
  by_cases ha0 : a = 0
  · subst ha0
    refine ⟨?_, ?_, ?_, hone, hzero⟩
    · rw [hzero]; exact answer_of_respond_ok (exec_div_of_zero s hb0)
    · rw [hzero]; exact resultOf_mul_zero_left _ s
    · rw [hzero]; exact (resultOf_mul_zero_left _ s).symm
  · obtain ⟨i, hi, rfl⟩ := hs.exists_exp_eq hprim ha ha0
    have hdiv : div (s.exp.read i) (s.exp.read j) = s.exp.read (divIndex s.params i j) :=
      hs.resultOf_div_exp hprim hi hj
    rw [hdiv]
    refine ⟨answer_of_respond_ok (hs.exec_div_exp hprim hi hj), ?_, ?_, hone, hzero⟩
    · simp only [mul]
      rw [hs.resultOf_mul_exp hprim (divIndex_lt hs.legal i j) hj, mulIndex_divIndex hi hj]
    · simp only [mul, inv]
      rw [hs.resultOf_inv_exp hprim hj, hs.resultOf_mul_exp hprim hi (invIndex_lt hj),
        divIndex_eq_mulIndex_invIndex i hj]

/-- Settles O35: the inverse negates the index, and so do `ORD - 1` summands of it. -/
theorem inverseLawsUnderPrimitive : Obligations.InverseLawsUnderPrimitive := by
  intro s hs hprim mul inv a ha ha0
  obtain ⟨i, hi, rfl⟩ := hs.exists_exp_eq hprim ha ha0
  have hinv : inv (s.exp.read i) = s.exp.read (invIndex s.params i) := hs.resultOf_inv_exp hprim hi
  have hlt := invIndex_lt hi
  rw [hinv]
  refine ⟨answer_of_respond_ok (hs.exec_inv_exp hprim hi), ?_, ?_, hs.exp_read_ne_zero hprim hlt, fun hm => ?_⟩
  · simp only [mul]
    rw [hs.resultOf_mul_exp hprim hi hlt, mulIndex_invIndex hi, hs.exp_read_zero]
  · simp only [inv]
    rw [hs.resultOf_inv_exp hprim hlt, invIndex_invIndex hi]
  · have hfs : 2 ^ 2 ≤ s.params.fs := Nat.pow_le_pow_right (by decide) hm
    have hexponent : s.params.fs - 3 + 1 = s.params.ord - 1 := by rw [Params.ord]; omega
    simp only [mul]
    rw [hs.iterate_mul_exp hprim hi, hexponent, mul_mod_eq_invIndex hi]

/-- The block of spec/95_test_vectors.md section 4.8, where x has order 5 and not 15. -/
def degenerateParams : Params := { m := 4, poly := 0x1F, depth := 1 }

theorem degenerateParams_not_primitive : ¬ Primitive degenerateParams := by
  have hrepeat : (expRom degenerateParams).read 5 = (expRom degenerateParams).read 0 := by decide
  intro h
  exact absurd (h.2 5 (by decide) 0 (by decide) hrepeat) (by decide)

/-- Settles O36: both sides answer the raw product; in the degenerate block `MUL 3, 3` is 1 and `MULRAW 3, 3` is 5. -/
theorem tableProductIsTheRawProductUnderPrimitive : Obligations.TableProductIsTheRawProductUnderPrimitive := by
  refine ⟨fun s a b hs hprim ha hb => (hs.exec_mul hprim ha hb).trans (exec_mulraw a b s).symm,
    State.fresh degenerateParams, 3, 3, State.fresh_built (by decide), degenerateParams_not_primitive, by decide,
    by decide, fun h => ?_⟩
  have hmul : answer (.mul 3 3) (State.fresh degenerateParams) = some ⟨1, .ok⟩ := by decide
  have hmulraw : answer (.mulraw 3 3) (State.fresh degenerateParams) = some ⟨5, .ok⟩ := by decide
  rw [answer_eq_responseOf, h, ← answer_eq_responseOf, hmulraw] at hmul
  exact absurd hmul (by decide)

end Sys2Proof.Machine
end

section
/-! PROOFS. The reference multiplier and the read-outs of the two ROMs (spec/42_reference_and_readout.md R120 to R122). -/

namespace Sys2Proof.Machine

/-- Settles O15: the response is the raw product, which the parameters and the operands determine. -/
theorem mulrawAnswersMultiplyRaw : Obligations.MulrawAnswersMultiplyRaw := by
  intro s a b exp log hp ha _
  refine ⟨exec_mulraw a b s, mulRaw_lt hp b ha, rfl, ?_, ?_, ?_, rfl, rfl⟩
  · rw [exec_mulraw, mulRaw_zero_left]; rfl
  · rw [exec_mulraw, mulRaw_zero_right]; rfl
  · rw [exec_mulraw, mulRaw_one]; rfl

/-! ### EXPRD and LOGRD -/

theorem exec_exprd_of_lt {s : State} {idx : Nat} (h : idx < 2 * s.params.fs) :
    exec (.exprd idx) s = s.respond (s.exp.read idx) .ok := by
  rw [exec, execExprd, State.readExp_of_lt h]

theorem exec_logrd_of_lt {s : State} {a : Nat} (h : a < s.params.fs) :
    exec (.logrd a) s = s.respond (s.log.read a) .ok := by
  rw [exec, execLogrd, State.readLog_of_lt h]

/-- An ignored b field is 0 in the word (spec/30_encoding.md R71). -/
theorem encode_of_fieldB_eq_zero {m : Nat} {i : Instr} (h : i.fieldB m = 0) :
    encode m i = i.opcode.toNat ||| (i.fieldA m <<< 4) := by
  rw [encode, Request.toWord, Instr.request, h, Nat.zero_shiftLeft, Nat.or_zero]

section
variable {s : State} (hs : s.Built)
include hs

/-- `EXP` holds its first `ORD` entries a second time. -/
theorem State.Built.exp_read_copy {i : Nat} (h : i < s.params.ord) :
    s.exp.read (i + s.params.ord) = s.exp.read i := by
  rw [hs.exp_eq, expRom_read_copy h, expRom_read_of_lt h]

theorem State.Built.exp_read_of_le {i : Nat} (h : 2 * s.params.ord ≤ i) : s.exp.read i = 0 := by
  rw [hs.exp_eq, expRom_read_of_le h]

theorem State.Built.log_read_zero (hprim : Primitive s.params) : s.log.read 0 = 0 := by
  rw [hs.log_eq, hprim.logRom_zero]

end

/-- Settles O16: every index below `2·FS` is one of `EXP`, whose last two entries the construction does not write. -/
theorem exprdAnswersTheExponentEntry : Obligations.ExprdAnswersTheExponentEntry := by
  intro s idx a b hs hidx
  have hord := s.params.ord_succ
  have hfs := hs.one_lt_fs
  have hlast {i : Nat} (hi : i < 2 * s.params.fs) (hle : 2 * s.params.ord ≤ i) :
      exec (.exprd i) s = s.respond 0 .ok := by
    rw [exec_exprd_of_lt hi, hs.exp_read_of_le hle]
  refine ⟨exec_exprd_of_lt hidx, congrArg Instr.exprd (exprdIndex_eq_add s.params.m a b), rfl, ?_, fun hi => ?_,
    hlast (by omega) (by omega), hlast (by omega) (by omega)⟩
  · rw [exec_exprd_of_lt (by omega), hs.exp_read_zero]; rfl
  · have hcopy : idx + s.params.ord < 2 * s.params.fs := by omega
    rw [answer_of_respond_ok (exec_exprd_of_lt hcopy), answer_of_respond_ok (exec_exprd_of_lt hidx),
      hs.exp_read_copy hi]

/-- Settles O17: every element is an index of `LOG`, and under PRIMITIVE the entries 0 and 1 hold 0. -/
theorem logrdAnswersTheLogarithmEntry : Obligations.LogrdAnswersTheLogarithmEntry := by
  intro s a b hs ha
  refine ⟨rfl, encode_of_fieldB_eq_zero rfl, exec_logrd_of_lt ha, fun hprim => ⟨?_, ?_⟩⟩
  · rw [exec_logrd_of_lt s.params.fs_pos, hs.log_read_zero hprim]; rfl
  · rw [exec_logrd_of_lt hs.one_lt_fs, hs.log_read_one hprim]; rfl

end Sys2Proof.Machine
end

section
/-! PROOFS. The error responses (spec/60_exceptions.md R140 to R146). -/

namespace Sys2Proof

/-! ### The error of an instruction -/

/-- The error an instruction raises, read off the instruction alone (spec/60_exceptions.md R142 to R145);
`Machine.exec_of_error_ne_ok` and `Machine.exec_of_error_eq_ok` tie it to the machine. -/
def Instr.error (i : Instr) : ErrCode :=
  match i with
  | .div _ 0 => .edivz
  | .inv 0 => .einvz
  | .reserved _ => .eillop
  | _ => .ok

theorem Instr.error_eq_edivz_iff {i : Instr} : i.error = .edivz ↔ ∃ a, i = .div a 0 := by
  fun_cases Instr.error i with
  | case4 i hdiv _ _ => simpa using hdiv
  | _ => simp

theorem Instr.error_eq_einvz_iff {i : Instr} : i.error = .einvz ↔ i = .inv 0 := by
  fun_cases Instr.error i with
  | case4 i _ hinv _ => simpa using hinv
  | _ => simp

theorem Instr.error_eq_eillop_iff {i : Instr} : i.error = .eillop ↔ ∃ op, i = .reserved op := by
  fun_cases Instr.error i with
  | case4 i _ _ hreserved => simpa using hreserved
  | _ => simp

namespace Machine

/-- The numbers of spec/60_exceptions.md R140 are distinct. -/
theorem errCode_eq_iff {e e' : ErrCode} : errCode e = errCode e' ↔ e = e' := by
  cases e <;> cases e' <;> decide

/-! ### What an instruction answers with and without an error -/

theorem exec_reserved (op : BitVec 4) (s : State) : exec (.reserved op) s = s.raise .eillop := rfl

/-- An error is raised before any table is read, from every state. -/
theorem exec_of_error_ne_ok {i : Instr} (s : State) (h : i.error ≠ .ok) : exec i s = s.raise i.error := by
  revert h
  fun_cases Instr.error i with
  | case1 a => exact fun _ => rfl
  | case2 => exact fun _ => rfl
  | case3 op => exact fun _ => exec_reserved op s
  | case4 => exact fun h => absurd rfl h

/-- spec/60_exceptions.md R145: every other well-formed instruction responds without an error. -/
theorem exec_of_error_eq_ok {i : Instr} {s : State} (hp : s.params.Legal) (hi : i.wf s.params = true)
    (h : i.error = .ok) : ∃ x, exec i s = s.respond x .ok := by
  cases i with
  | add a b => exact ⟨_, exec_add a b s⟩
  | sub a b => exact ⟨_, exec_sub a b s⟩
  | mul a b =>
    obtain ⟨ha, hb⟩ := Laws.EncodedFieldsFit.elements_lt hi
    by_cases hzero : a = 0 ∨ b = 0
    · exact ⟨_, exec_mul_of_zero s hzero⟩
    · obtain ⟨ha0, hb0⟩ := not_or.1 hzero
      exact ⟨_, exec_mul_of_ne_zero hp ha hb ha0 hb0⟩
  | div a b =>
    obtain ⟨ha, hb⟩ := Laws.EncodedFieldsFit.elements_lt hi
    have hb0 : b ≠ 0 := by rintro rfl; cases h
    by_cases ha0 : a = 0
    · exact ⟨_, ha0 ▸ exec_div_of_zero s hb0⟩
    · exact ⟨_, exec_div_of_ne_zero hp ha hb ha0 hb0⟩
  | inv a =>
    have ha0 : a ≠ 0 := by rintro rfl; cases h
    exact ⟨_, exec_inv_of_ne_zero hp (Params.isElement_iff.1 hi) ha0⟩
  | mulraw a b => exact ⟨_, exec_mulraw a b s⟩
  | exprd idx => exact ⟨_, exec_exprd_of_lt (of_decide_eq_true hi)⟩
  | logrd a => exact ⟨_, exec_logrd_of_lt (Params.isElement_iff.1 hi)⟩
  | reserved op => cases h

/-- A well-formed instruction answers with its own error, and an error leaves no result. -/
theorem exec_eq_respond_error {i : Instr} {s : State} (hp : s.params.Legal) (hi : i.wf s.params = true) :
    ∃ x, exec i s = s.respond x i.error ∧ (i.error ≠ .ok → x = 0) := by
  by_cases h : i.error = .ok
  · obtain ⟨x, hx⟩ := exec_of_error_eq_ok hp hi h
    exact ⟨x, h ▸ hx, fun hne => absurd h hne⟩
  · exact ⟨0, exec_of_error_ne_ok s h, fun _ => rfl⟩

/-- Settles O21: the response carries the instruction's own error, and the numbers of the errors are distinct. -/
theorem errorsAreRaisedExactlyWhereNamed : Obligations.ErrorsAreRaisedExactlyWhereNamed := by
  intro i s hs hi
  obtain ⟨x, hx, hzero⟩ := exec_eq_respond_error hs.legal hi
  exact ⟨⟨x, i.error⟩, hx, exec_result_lt hs hi hx rfl,
    Instr.error_eq_edivz_iff, Instr.error_eq_einvz_iff, Instr.error_eq_eillop_iff, hzero,
    (errCode_eq_iff (e' := .edivz)).trans Instr.error_eq_edivz_iff,
    (errCode_eq_iff (e' := .einvz)).trans Instr.error_eq_einvz_iff,
    (errCode_eq_iff (e' := .eillop)).trans Instr.error_eq_eillop_iff⟩

/-- Settles O18: the decoder drops the fields of a reserved opcode, and its instruction raises EILLOP. -/
theorem reservedOpcodesAnswerIllegalOpcode : Obligations.ReservedOpcodesAnswerIllegalOpcode :=
  fun s r h => ⟨Request.decode_of_reserved s.params.m h, exec_reserved r.op s⟩

end Machine

end Sys2Proof
end

section
/-! PROOFS. Reset and the duties of host and block (spec/70_reset_and_hazards.md R160 to R165). -/

namespace Sys2Proof.Machine

/-! ### Reset -/

theorem State.issues_of_rst (s : State) {c : Cycle} (h : c.rst = true) : s.issues c = none := by
  simp [State.issues, h]

/-- Under reset the block starts no offer, and its edge is the reset edge. -/
theorem step_of_rst {s : State} (h : s.nextCycle.rst = true) :
    step s = .next (s.beginCycle s.nextCycle).resetEdge := by
  rw [step_of_drive (State.drive_of_issues_none (State.issues_of_rst _ h)), State.edge_of_rst _ h]

/-- The reset edge overwrites every part of the invariant that the handshake state could break. -/
theorem State.Built.resetEdge_inv {s : State} (hs : s.Built) (hfit : s.PortsFit) : s.resetEdge.Inv where
  built := ⟨hs.legal, hs.exp_eq, hs.log_eq⟩
  depth := Nat.zero_le _
  queueFits := List.forall_mem_nil _
  presentedFits := List.forall_mem_nil _
  portsFit := hfit
  offered := .inl rfl

/-- Settles O41: the two resets overwrite the one field, `req_ready`, that the cycle could have made different. -/
theorem resetEmptiesTheQueue : Obligations.ResetEmptiesTheQueue :=
  fun _ _ _ _ hc hd => ⟨_, step_of_rst hc, rfl, rfl, rfl, rfl, rfl, rfl, rfl, rfl, step_of_rst hd⟩

/-- Settles O42: the edge leaves nothing of the power-up values of the handshake. -/
theorem oneResetEdgeBootsFromAnyPowerUpState : Obligations.OneResetEdgeBootsFromAnyPowerUpState := by
  intro s hs hfit hrst
  have hbegun : (s.beginCycle s.nextCycle).Built := ⟨hs.legal, hs.exp_eq, hs.log_eq⟩
  exact ⟨_, step_of_rst hrst, hbegun.resetEdge_inv fun c hc => hfit c (List.mem_of_mem_tail hc), rfl⟩

/-! ### The duties of the block and of the host -/

theorem State.issues_of_rsp {s : State} {r : Response} (h : s.rsp = some r) (c : Cycle) : s.issues c = none := by
  simp [State.issues, h]

theorem State.issues_of_q_nil {s : State} (h : s.q = []) (c : Cycle) : s.issues c = none := by
  simp [State.issues, h]

theorem State.responseEdge_of_not_ready (s : State) {c : Cycle} (h : c.rspReady = false) : s.responseEdge c = s := by
  simp [State.responseEdge, h]

/-- Settles O49: a held response stops the block from starting another offer, and neither `req_ready` nor the choice to
offer reads the other side's input. -/
theorem offeredResponsesAreHeld : Obligations.OfferedResponsesAreHeld := by
  refine ⟨fun s r hr hrst hready => ?_, fun s t c hq hnone hdrive => ?_, fun s c d hrst hready => ?_,
    fun s c d hrst hoffer => ?_⟩
  · have hissues : (s.beginCycle s.nextCycle).issues s.nextCycle = none := State.issues_of_rsp hr _
    refine ⟨_, step_of_drive (State.drive_of_issues_none hissues), ?_⟩
    rw [State.edge_of_not_rst _ hrst, State.responseEdge_of_not_ready _ hready, State.requestEdge_rsp]
    exact hr
  · have hissues : (s.beginCycle c).issues c = none := State.issues_of_q_nil hq c
    rw [State.drive_of_issues_none hissues] at hdrive
    obtain rfl := Host.Outcome.next.inj hdrive
    simp [State.rspValid, hnone]
  · rw [State.drivesReady, State.drivesReady, hrst, hready]
  · have hissues : s.issues c = s.issues d := by rw [State.issues, State.issues, hrst, hoffer]
    rw [State.drive, State.drive, hissues]

theorem State.requestEdge_of_transfer {s : State} {c : Cycle} (hvalid : c.reqValid = true)
    (hready : s.reqReady = true) : s.requestEdge c = s.accept (s.accepts c.req) := by
  simp [State.requestEdge, hvalid, hready]

/-- Up to the request channel's part a cycle changes neither what was presented nor the free value of the choice. -/
theorem State.accepts_of_drive {s u : State} {c : Cycle} (h : (s.beginCycle c).drive c = .next u) (r : Request) :
    (u.responseEdge c).accepts r = (s.beginCycle c).accepts r := by
  obtain ⟨o, rfl⟩ := State.drive_frame h
  exact State.accepts_congr (by simp) (by simp) r

theorem State.reqReady_of_drive {s u : State} {c : Cycle} (h : (s.beginCycle c).drive c = .next u) :
    (u.responseEdge c).reqReady = s.drivesReady c := by
  obtain ⟨o, rfl⟩ := State.drive_frame h
  simp

/-- Settles O51: the accepted request joins the tail, and it is one of those presented when the cycle began or the one on
the ports. -/
theorem acceptanceIsOfAPresentedRequest : Obligations.AcceptanceIsOfAPresentedRequest := by
  intro s t hrst hvalid hready hstep
  obtain ⟨u, hu, rfl⟩ := step_next hstep
  rw [State.edge_of_not_rst u hrst, State.requestEdge_of_transfer hvalid ((State.reqReady_of_drive hu).trans hready),
    State.accepts_of_drive hu]
  refine ⟨(s.beginCycle s.nextCycle).accepts s.nextCycle.req, ?_, ?_, rfl, fun hkept hlen => ?_⟩
  · rw [State.accept_q, List.getLast?_concat]
  · exact State.mem_withPresented (State.accepts_mem _ _)
  · exact State.accepts_of_kept hkept hlen

end Sys2Proof.Machine
end

section
/-! PROOFS. What the statements of progress (spec/70_reset_and_hazards.md R169) need: what one cycle without reset does to
the ledger of a block in use, and what an infinite run of such cycles does. -/

namespace Sys2Proof.Machine

/-! ### One cycle without reset -/

/-- The responses the host has taken, followed by those the block owes. -/
def State.ledger (s : State) : List (Option Response) := Machine.ledger s.params (s.q, s.taken)

theorem State.ledger_eq (s : State) : s.ledger = s.taken.map some ++ s.q.map (eval s.params) := rfl

@[simp] theorem State.ledger_length (s : State) : s.ledger.length = s.taken.length + s.q.length := by
  simp [State.ledger_eq]

theorem State.offersIn_of_offer {s : State} {c : Cycle} (hrst : c.rst = false) (hoffer : c.offer = true)
    (hq : s.q ≠ []) : s.offersIn c = true := by
  simp [State.offersIn, hrst, hoffer, hq]

theorem State.drivesReady_of_room {s : State} {c : Cycle} (hrst : c.rst = false) (hready : c.ready = true)
    (hroom : s.q.length < s.params.depth) : s.drivesReady c = true := by
  simp [State.drivesReady, hrst, hready, hroom]

theorem State.acceptsIn_of_not_drivesReady {s : State} {c : Cycle} (h : s.drivesReady c = false) :
    s.acceptsIn c = [] := by
  simp [State.acceptsIn, h]

theorem State.acceptsIn_of_not_reqValid {s : State} {c : Cycle} (h : c.reqValid = false) : s.acceptsIn c = [] := by
  simp [State.acceptsIn, h]

theorem State.Inv.ne_nil_of_offersIn {s : State} {c : Cycle} (hs : s.Inv) (h : s.offersIn c = true) : s.q ≠ [] := by
  obtain hheld | hstarts := (Bool.or_eq_true_iff).1 h
  · obtain ⟨r, hr⟩ := hs.head_of_rspValid hheld
    exact List.ne_nil_of_mem (List.mem_of_mem_head? hr)
  · obtain ⟨-, hq⟩ := (Bool.and_eq_true_iff).1 hstarts
    simpa using hq

section
variable {s t : State} {c : Cycle} (hs : s.Inv) (hrst : c.rst = false) (h : s.inCycle c = .next t)
include hs hrst h

/-- spec/20_memory.md R47, R48, whatever the host presents. -/
theorem State.Inv.inCycle_transfers :
    t.reqReady = s.drivesReady c ∧
    t.q = (if s.offersIn c && c.rspReady then s.q.tail else s.q) ++ s.acceptsIn c ∧
    t.taken.map some =
      s.taken.map some ++ (if s.offersIn c && c.rspReady then [s.q.head?.bind (eval s.params)] else []) := by
  obtain ⟨u, hu, rfl⟩ := State.inCycle_next h
  obtain ⟨hq, htaken, -⟩ := (hs.beginCycle c).responseEdge_of_drive hu
  rw [State.edge_of_not_rst u hrst]
  refine ⟨?_, ?_, ?_⟩
  · rw [State.requestEdge_reqReady, State.reqReady_of_drive hu]
  · rw [State.requestEdge_q, hq, State.reqReady_of_drive hu, State.accepts_of_drive hu, State.acceptsIn, hrst]
    rfl
  · rw [State.requestEdge_taken, htaken]
    rfl

/-- The ledger grows by what the cycle accepts; a response that is taken keeps its place. -/
theorem State.Inv.inCycle_ledger : t.ledger = s.ledger ++ (s.acceptsIn c).map (eval s.params) := by
  obtain ⟨-, hq, htaken⟩ := hs.inCycle_transfers hrst h
  have hparams : t.params = s.params := (State.inCycle_frame h).1
  rw [State.ledger_eq, State.ledger_eq, hparams, hq, htaken]
  cases htakes : s.offersIn c && c.rspReady with
  | false => simp
  | true =>
    obtain ⟨hoffers, -⟩ := (Bool.and_eq_true_iff).1 htakes
    obtain ⟨r, rest, hcons⟩ := List.exists_cons_of_ne_nil (hs.ne_nil_of_offersIn hoffers)
    simp [hcons]

theorem State.Inv.inCycle_taken_length :
    t.taken.length = s.taken.length + (if s.offersIn c && c.rspReady then 1 else 0) := by
  obtain ⟨-, -, htaken⟩ := hs.inCycle_transfers hrst h
  rw [← List.length_map some, htaken, List.length_append, List.length_map]
  split <;> rfl

end

/-- Once as many responses are taken as were taken or due before, they begin with those. -/
theorem State.answered_of_ledger_prefix {s t : State} (h : s.ledger <+: t.ledger)
    (hlen : s.ledger.length ≤ t.taken.length) :
    ∃ answers later : List Response, t.taken = s.taken ++ answers ++ later ∧
      answers.map some = s.q.map (eval s.params) := by
  have hprefix : s.ledger <+: t.taken.map some :=
    List.prefix_of_prefix_length_le h (List.prefix_append _ _) (by simpa using hlen)
  obtain ⟨rest, hrest⟩ := hprefix
  obtain ⟨front, later, htaken, hfront, -⟩ := List.map_eq_append_iff.1 hrest.symm
  obtain ⟨before, answers, rfl, hbefore, hanswers⟩ := List.map_eq_append_iff.1 hfront
  obtain rfl := (Option.some_injective Response).list_map hbefore
  exact ⟨answers, later, htaken, hanswers⟩

/-! ### Infinite runs -/

theorem Runs.params_eq {c : Nat → Cycle} {σ : Nat → State} (hrun : Runs c σ) (n : Nat) :
    (σ n).params = (σ 0).params := by
  induction n with
  | zero => rfl
  | succ n ih => exact (State.inCycle_frame (hrun n)).1.trans ih

theorem Runs.inv {c : Nat → Cycle} {σ : Nat → State} (hrun : Runs c σ) (h : (σ 0).Inv)
    (hfits : ∀ n, (c n).req.fits (σ 0).params = true) (n : Nat) : (σ n).Inv := by
  induction n with
  | zero => exact h
  | succ n ih => exact ih.inCycle (hrun.params_eq n ▸ hfits n) (hrun n)

section
variable {c : Nat → Cycle} {σ : Nat → State} (hrun : Runs c σ) (hinv : ∀ n, (σ n).Inv) {m n : Nat} (hmn : m ≤ n)
  (hrst : ∀ k, m ≤ k → k < n → (c k).rst = false)
include hrun hinv hmn hrst

theorem Runs.ledger_prefix : (σ m).ledger <+: (σ n).ledger := by
  induction n, hmn using Nat.le_induction with
  | base => exact List.prefix_rfl
  | succ n hmn ih =>
    have hcycle := (hinv n).inCycle_ledger (hrst n hmn n.lt_succ_self) (hrun n)
    exact (ih fun k hk hkn => hrst k hk (Nat.lt_succ_of_lt hkn)).trans (hcycle ▸ List.prefix_append _ _)

theorem Runs.ledger_length_le :
    (σ m).taken.length + (σ m).q.length ≤ (σ n).taken.length + (σ n).q.length := by
  simpa using (hrun.ledger_prefix hinv hmn hrst).length_le

theorem Runs.taken_length_le : (σ m).taken.length ≤ (σ n).taken.length := by
  induction n, hmn using Nat.le_induction with
  | base => exact Nat.le_refl _
  | succ n hmn ih =>
    have hcycle := (hinv n).inCycle_taken_length (hrst n hmn n.lt_succ_self) (hrun n)
    have hbefore := ih fun k hk hkn => hrst k hk (Nat.lt_succ_of_lt hkn)
    omega

theorem Runs.ledger_eq_of_no_acceptance (hnone : ∀ k, m ≤ k → k < n → (σ k).acceptsIn (c k) = []) :
    (σ n).ledger = (σ m).ledger := by
  induction n, hmn using Nat.le_induction with
  | base => rfl
  | succ n hmn ih =>
    rw [(hinv n).inCycle_ledger (hrst n hmn n.lt_succ_self) (hrun n), hnone n hmn n.lt_succ_self, List.map_nil,
      List.append_nil]
    exact ih (fun k hk hkn => hrst k hk (Nat.lt_succ_of_lt hkn)) fun k hk hkn => hnone k hk (Nat.lt_succ_of_lt hkn)

end

/-- The block is willing to answer in the cycle, and the host to take the response. -/
def Cycle.answers (c : Cycle) : Bool := c.offer && c.rspReady

section
variable {c : Nat → Cycle} {σ : Nat → State} (hrun : Runs c σ) (hinv : ∀ n, (σ n).Inv)
include hrun hinv

/-- A cycle that answers takes one response, unless nothing is in flight. -/
theorem Runs.taken_length_of_answers {i : Nat} (hrst : (c i).rst = false) (h : (c i).answers = true) :
    (σ (i + 1)).taken.length = (σ i).taken.length + min (σ i).q.length 1 := by
  obtain ⟨hoffer, hready⟩ := (Bool.and_eq_true_iff).1 h
  rw [(hinv i).inCycle_taken_length hrst (hrun i), hready, Bool.and_true]
  cases hoffers : (σ i).offersIn (c i) with
  | true =>
    have hq := List.length_pos_iff.2 ((hinv i).ne_nil_of_offersIn hoffers)
    rw [if_pos rfl, Nat.min_eq_right hq]
  | false =>
    have hq : (σ i).q = [] := by
      by_contra hne
      simp [State.offersIn_of_offer hrst hoffer hne] at hoffers
    simp [hq]

/-- As many responses are taken as there are cycles that answer, until all that were due are. -/
theorem Runs.taken_length_of_count {n : Nat} (hrst : ∀ k < n, (c k).rst = false) :
    (σ 0).taken.length + min (σ 0).q.length (Nat.count (fun k => (c k).answers) n) ≤ (σ n).taken.length := by
  induction n with
  | zero => simp
  | succ n ih =>
    have hbefore := ih fun k hk => hrst k (Nat.lt_succ_of_lt hk)
    have hdue := hrun.ledger_length_le hinv (Nat.zero_le n) fun k _ hk => hrst k (Nat.lt_succ_of_lt hk)
    have hmono := hrun.taken_length_le hinv (Nat.le_add_right n 1) fun k hk hkn => hrst k hkn
    rw [Nat.count_succ]
    split
    · next hanswers =>
      have htakes := hrun.taken_length_of_answers hinv (hrst n n.lt_succ_self) hanswers
      omega
    · omega

/-- Once the block has answered and as long as it accepts nothing, there is room for a request. -/
theorem Runs.room_of_answers {i n : Nat} (hin : i + 1 ≤ n) (hrst : ∀ k, i ≤ k → k < n → (c k).rst = false)
    (h : (c i).answers = true) (hnone : ∀ k, i ≤ k → k < n → (σ k).acceptsIn (c k) = []) :
    (σ n).q.length < (σ n).params.depth := by
  have htakes := hrun.taken_length_of_answers hinv (hrst i (Nat.le_refl i) hin) h
  have hmono := hrun.taken_length_le hinv hin fun k hk => hrst k (Nat.le_of_succ_le hk)
  have hledger := congrArg List.length (hrun.ledger_eq_of_no_acceptance hinv (Nat.le_of_lt hin) hrst hnone)
  have hdepth : (σ i).q.length ≤ (σ n).params.depth := by
    rw [hrun.params_eq n, ← hrun.params_eq i]
    exact (hinv i).depth
  obtain ⟨-, -, -, -, hpos⟩ := (hinv n).built.legal
  simp only [State.ledger_length] at hledger
  omega

theorem Runs.reqReady_succ {n : Nat} (hrst : (c n).rst = false) : (σ (n + 1)).reqReady = (σ n).drivesReady (c n) :=
  ((hinv n).inCycle_transfers hrst (hrun n)).1

end

/-! ### Infinite runs of the machine -/

/-- The state after `n` steps from `s`; a step that stops leaves the state. -/
def State.trace (s : State) : Nat → State
  | 0 => s
  | n + 1 =>
    match step (s.trace n) with
    | .next t => t
    | .fault _ => s.trace n
    | .refused _ => s.trace n

theorem State.step_trace {s t : State} {n : Nat} (h : step (s.trace n) = .next t) :
    step (s.trace n) = .next (s.trace (n + 1)) := by
  simp only [State.trace, h]

/-- A block in use runs for ever. -/
theorem State.Inv.exists_run {s : State} (hs : s.Inv) :
    ∃ σ : Nat → State, σ 0 = s ∧ (∀ n, (σ n).Inv) ∧ ∀ n, step (σ n) = .next (σ (n + 1)) := by
  have hstep {n : Nat} (h : (s.trace n).Inv) : step (s.trace n) = .next (s.trace (n + 1)) := by
    obtain ⟨t, ht⟩ := aBlockInUseNeverStops _ h
    exact State.step_trace ht
  have hinv (n : Nat) : (s.trace n).Inv := by
    induction n with
    | zero => exact hs
    | succ n ih => exact everyStepKeepsTheInvariant _ _ ih (hstep ih)
  exact ⟨s.trace, rfl, hinv, fun n => hstep (hinv n)⟩

theorem State.nextCycle_eq_head (s : State) : s.nextCycle = s.schedule.head?.getD Cycle.willing := by
  unfold State.nextCycle
  split <;> simp [*]

section
variable {σ : Nat → State} (hsteps : ∀ n, step (σ n) = .next (σ (n + 1)))
include hsteps

theorem core_run_of_steps_from (n m : Nat) : Sys2Proof.core.run n (σ m) = .next (σ (m + n)) := by
  induction n generalizing m with
  | zero => rfl
  | succ n ih =>
    have hrun : Sys2Proof.core.run (n + 1) (σ m) = Sys2Proof.core.run n (σ (m + 1)) := by
      simp only [Host.Core.run, show Sys2Proof.core.step (σ m) = .next (σ (m + 1)) from hsteps m]
    rw [hrun, ih (m + 1), Nat.succ_add_eq_add_succ]

theorem core_run_of_steps (n : Nat) : Sys2Proof.core.run n (σ 0) = .next (σ n) := by
  rw [core_run_of_steps_from hsteps, Nat.zero_add]

theorem schedule_of_steps (n m : Nat) : (σ (m + n)).schedule = (σ m).schedule.drop n := by
  induction n with
  | zero => rfl
  | succ n ih => rw [← Nat.add_assoc, State.inCycle_schedule (hsteps (m + n)), ih, List.tail_drop]

theorem nextCycle_of_steps (n : Nat) : (σ n).nextCycle = (σ 0).schedule[n]?.getD Cycle.willing := by
  rw [State.nextCycle_eq_head, ← Nat.zero_add n, schedule_of_steps hsteps n 0, List.head?_drop, Nat.zero_add]

/-- A cycle of the run is one that was scheduled at first, or the willing one. -/
theorem nextCycle_mem_take_of_steps {k n : Nat} (hk : k < n) :
    (σ k).nextCycle ∈ (σ 0).schedule.take n ∨ (σ k).nextCycle = Cycle.willing := by
  rw [nextCycle_of_steps hsteps]
  cases h : (σ 0).schedule[k]? with
  | none => exact .inr rfl
  | some c => exact .inl (List.mem_of_getElem? ((List.getElem?_take_of_lt hk).trans h))

theorem rst_of_steps {n : Nat} (hrst : ∀ c ∈ (σ 0).schedule.take n, c.rst = false) {k : Nat} (hk : k < n) :
    (σ k).nextCycle.rst = false := by
  obtain hmem | hwilling := nextCycle_mem_take_of_steps hsteps hk
  · exact hrst _ hmem
  · exact congrArg Cycle.rst hwilling

/-- Past the end of the schedule every cycle is the willing one. -/
theorem nextCycle_of_steps_past {n k : Nat} (hk : n + (σ n).schedule.length ≤ k) : (σ k).nextCycle = Cycle.willing := by
  obtain ⟨d, rfl⟩ := Nat.exists_eq_add_of_le (Nat.le_trans (Nat.le_add_right _ _) hk)
  apply State.nextCycle_of_empty
  rw [schedule_of_steps hsteps, List.drop_eq_nil_of_le (Nat.le_of_add_le_add_left hk)]

/-- Every request in flight is answered within `n` cycles, if as many of them answer. -/
theorem answered_of_count (hinv : ∀ n, (σ n).Inv) {n : Nat} (hrst : ∀ c ∈ (σ 0).schedule.take n, c.rst = false)
    (hcount : (σ 0).q.length ≤ Nat.count (fun k => (σ k).nextCycle.answers) n) :
    ∃ (t : State) (answers later : List Response), Sys2Proof.core.run n (σ 0) = .next t ∧
      t.taken = (σ 0).taken ++ answers ++ later ∧ answers.map some = (σ 0).q.map (eval (σ 0).params) := by
  have htaken := Runs.taken_length_of_count hsteps hinv fun k hk => rst_of_steps hsteps hrst hk
  rw [Nat.min_eq_left hcount, ← State.ledger_length] at htaken
  have hprefix := Runs.ledger_prefix hsteps hinv (Nat.zero_le n) fun k _ hk => rst_of_steps hsteps hrst hk
  obtain ⟨answers, later, h⟩ := State.answered_of_ledger_prefix hprefix htaken
  exact ⟨σ n, answers, later, core_run_of_steps hsteps n, h⟩

end

end Sys2Proof.Machine
end

section
/-! PROOFS. The statements of progress (spec/70_reset_and_hazards.md R169). -/

namespace Sys2Proof.Machine

/-! ### Within a bound -/

/-- The cycles of a schedule that meet `p` are among the first cycles of the run. -/
theorem countP_take_le_count (p : Cycle → Bool) (l : List Cycle) (n : Nat) :
    (l.take n).countP p ≤ Nat.count (fun k => p (l[k]?.getD Cycle.willing)) n := by
  induction n with
  | zero => simp
  | succ n ih =>
    rw [List.take_add_one, List.countP_append, Nat.count_succ]
    refine Nat.add_le_add ih ?_
    cases l[n]? with
    | none => simp
    | some c => simp [List.countP_singleton]

/-- Settles O52: as many of the cycles answer as there were requests in flight. -/
theorem everyRequestInFlightIsAnswered : Obligations.EveryRequestInFlightIsAnswered := by
  intro n s hs hhost hoffers
  obtain ⟨σ, rfl, hinv, hsteps⟩ := hs.exists_run
  have hanswers : ((σ 0).schedule.take n).filter (fun c => c.offer) = ((σ 0).schedule.take n).filter Cycle.answers :=
    List.filter_congr fun c hc => by simp [Cycle.answers, (hhost c hc).2]
  have hcount := countP_take_le_count Cycle.answers (σ 0).schedule n
  simp only [← nextCycle_of_steps hsteps] at hcount
  rw [hanswers, ← List.countP_eq_length_filter] at hoffers
  exact answered_of_count hsteps hinv (fun c hc => (hhost c hc).1) (hoffers.trans hcount)

/-- Settles O53: unless `req_ready` is raised before, nothing is accepted after the answer, so there is room. -/
theorem requestReadyIsRaisedOnceABlockAnswers : Obligations.RequestReadyIsRaisedOnceABlockAnswers := by
  intro i j s c d hs hhost hij hc hoffer hd hready
  obtain ⟨σ, rfl, hinv, hsteps⟩ := hs.exists_run
  have hrst {k : Nat} (hk : k < j + 1) : (σ k).nextCycle.rst = false :=
    rst_of_steps hsteps (fun e he => (hhost e he).1) hk
  have hraised {k : Nat} (hk : k < j + 1) (h : (σ k).drivesReady (σ k).nextCycle = true) :
      ∃ (k : Nat) (t : State), 1 ≤ k ∧ k ≤ j + 1 ∧ Sys2Proof.core.run k (σ 0) = .next t ∧ t.reqReady = true :=
    ⟨k + 1, σ (k + 1), Nat.le_add_left _ _, hk, core_run_of_steps hsteps _,
      (Runs.reqReady_succ hsteps hinv (hrst hk)).trans h⟩
  by_cases hearlier : ∃ k < j, (σ k).drivesReady (σ k).nextCycle = true
  · obtain ⟨k, hk, h⟩ := hearlier
    exact hraised (Nat.lt_succ_of_lt hk) h
  · have hanswers : (σ i).nextCycle.answers = true := by
      have hmem : c ∈ (σ 0).schedule.take (j + 1) :=
        List.mem_of_getElem? ((List.getElem?_take_of_lt (Nat.lt_succ_of_lt hij)).trans hc)
      rw [nextCycle_of_steps hsteps, hc, Option.getD_some, Cycle.answers, hoffer, (hhost c hmem).2]
      rfl
    have hnone (k : Nat) (hk : k < j) : (σ k).acceptsIn (σ k).nextCycle = [] :=
      State.acceptsIn_of_not_drivesReady (Bool.eq_false_iff.2 fun h => hearlier ⟨k, hk, h⟩)
    have hroom := Runs.room_of_answers hsteps hinv hij (fun k _ hk => hrst (Nat.lt_succ_of_lt hk)) hanswers
      fun k _ hk => hnone k hk
    have hwants : (σ j).nextCycle.ready = true := by rw [nextCycle_of_steps hsteps, hd]; exact hready
    exact hraised j.lt_succ_self (State.drivesReady_of_room (hrst j.lt_succ_self) hwants hroom)

/-- Settles O58: each cycle past the end of the schedule answers, and none presents a request; so the first of them makes
room, and the second raises `req_ready`. -/
theorem everyRequestIsAnsweredOnceTheScheduleEnds : Obligations.EveryRequestIsAnsweredOnceTheScheduleEnds := by
  intro s hs
  obtain ⟨σ, rfl, hinv, hsteps⟩ := hs.exists_run
  have hwilling {k : Nat} (hk : (σ 0).schedule.length ≤ k) : (σ k).nextCycle = Cycle.willing :=
    nextCycle_of_steps_past hsteps (n := 0) (by rwa [Nat.zero_add])
  refine ⟨fun hreset => ?_, σ ((σ 0).schedule.length + 2), core_run_of_steps hsteps _, ?_⟩
  · have hlast : Nat.count (fun k => (σ ((σ 0).schedule.length + k)).nextCycle.answers) (σ 0).q.length =
        (σ 0).q.length :=
      Nat.count_iff_forall.2 fun k _ => congrArg Cycle.answers (hwilling (Nat.le_add_right _ k))
    refine answered_of_count hsteps hinv (fun c hc => hreset c (List.mem_of_mem_take hc)) ?_
    rw [Nat.count_add, hlast]
    exact Nat.le_add_left _ _
  · have hroom := Runs.room_of_answers hsteps hinv (Nat.le_refl ((σ 0).schedule.length + 1))
      (fun k hk _ => congrArg Cycle.rst (hwilling hk)) (congrArg Cycle.answers (hwilling (Nat.le_refl _)))
      fun k hk _ => State.acceptsIn_of_not_reqValid (congrArg Cycle.reqValid (hwilling hk))
    have hnext := hwilling (Nat.le_add_right (σ 0).schedule.length 1)
    have hrst := congrArg Cycle.rst hnext
    rw [Runs.reqReady_succ hsteps hinv hrst]
    exact State.drivesReady_of_room hrst (congrArg Cycle.ready hnext) hroom

/-! ### Weak fairness -/

/-- Settles O57: past the end of its schedule the machine is willing to offer and to accept. -/
theorem everyRunOfTheMachineIsWeaklyFair : Obligations.EveryRunOfTheMachineIsWeaklyFair := by
  intro σ hsteps
  have hpast (n : Nat) : ∃ k ≥ n, (σ k).nextCycle = Cycle.willing :=
    ⟨_, Nat.le_add_right _ _, nextCycle_of_steps_past hsteps (Nat.le_refl _)⟩
  refine ⟨hsteps, fun n henabled => ?_, fun n henabled => ?_⟩
  · obtain ⟨k, hk, hwilling⟩ := hpast n
    obtain ⟨hrst, -, hq⟩ := henabled k hk
    exact ⟨k, hk, State.offersIn_of_offer hrst (congrArg Cycle.offer hwilling) hq⟩
  · obtain ⟨k, hk, hwilling⟩ := hpast n
    obtain ⟨hrst, -, hroom⟩ := henabled k hk
    exact ⟨k, hk, State.drivesReady_of_room hrst (congrArg Cycle.ready hwilling) hroom⟩

section
variable {c : Nat → Cycle} {σ : Nat → State} (hrun : Runs c σ) (hinv : ∀ n, (σ n).Inv) (hfair : WeaklyFair c σ)
  {n : Nat} (hhost : ∀ k ≥ n, (c k).rst = false ∧ (c k).rspReady = true)
include hrun hinv hfair hhost

/-- By fairness of `respond`, the responses taken grow until none of those due is missing. -/
theorem WeaklyFair.exists_taken_length {d : Nat} (hd : d ≤ (σ n).q.length) :
    ∃ k ≥ n, (σ n).taken.length + d ≤ (σ k).taken.length := by
  induction d with
  | zero => exact ⟨n, Nat.le_refl n, Nat.le_refl _⟩
  | succ d ih =>
    obtain ⟨k, hk, htaken⟩ := ih (Nat.le_of_succ_le hd)
    by_cases hbusy : ∀ j ≥ k, (σ j).q ≠ []
    · obtain ⟨j, hj, hoffers⟩ := hfair.respond k fun j hj =>
        ⟨(hhost j (hk.trans hj)).1, (hhost j (hk.trans hj)).2, hbusy j hj⟩
      obtain ⟨hrst, hready⟩ := hhost j (hk.trans hj)
      have hmono := hrun.taken_length_le hinv hj fun i hi _ => (hhost i (hk.trans hi)).1
      have htakes := (hinv j).inCycle_taken_length hrst (hrun j)
      rw [hoffers, hready, Bool.and_self, if_pos rfl] at htakes
      exact ⟨j + 1, Nat.le_succ_of_le (hk.trans hj), by omega⟩
    · obtain ⟨j, hj, hidle⟩ : ∃ j ≥ k, (σ j).q = [] := by simpa using hbusy
      have hdue := hrun.ledger_length_le hinv (hk.trans hj) fun i hi _ => (hhost i hi).1
      rw [hidle, List.length_nil] at hdue
      exact ⟨j, hk.trans hj, by omega⟩

/-- By fairness of `accept`: were `req_ready` never raised, `Q` would be empty from some cycle on. -/
theorem WeaklyFair.exists_drivesReady : ∃ k ≥ n, (σ k).drivesReady (c k) = true := by
  by_contra hnever
  have hnone (k : Nat) (hk : n ≤ k) : (σ k).acceptsIn (c k) = [] :=
    State.acceptsIn_of_not_drivesReady (Bool.eq_false_iff.2 fun h => hnever ⟨k, hk, h⟩)
  obtain ⟨i, hi, htaken⟩ := hfair.exists_taken_length hrun hinv hhost (Nat.le_refl _)
  have hroom (k : Nat) (hk : i ≤ k) : (σ k).q.length < (σ k).params.depth := by
    have hnk : n ≤ k := hi.trans hk
    have hledger := congrArg List.length
      (hrun.ledger_eq_of_no_acceptance hinv hnk (fun j hj _ => (hhost j hj).1) fun j hj _ => hnone j hj)
    have hmono := hrun.taken_length_le hinv hk fun j hj _ => (hhost j (hi.trans hj)).1
    obtain ⟨-, -, -, -, hpos⟩ := (hinv k).built.legal
    simp only [State.ledger_length] at hledger
    omega
  obtain ⟨k, hk, hready⟩ := hfair.accept i fun k hk =>
    ⟨(hhost k (hi.trans hk)).1, (hhost k (hi.trans hk)).2, hroom k hk⟩
  exact hnever ⟨k, hi.trans hk, hready⟩

end

/-- Settles O56, from the fairness of `respond` and then of `accept`. -/
theorem weaklyFairRunsAnswerEveryRequest : Obligations.WeaklyFairRunsAnswerEveryRequest := by
  intro c σ hs hfits hrun hfair n hhost
  have hinv := hrun.inv hs hfits
  constructor
  · obtain ⟨k, hk, htaken⟩ := hfair.exists_taken_length hrun hinv hhost (Nat.le_refl _)
    have hprefix := hrun.ledger_prefix hinv hk fun j hj _ => (hhost j hj).1
    exact ⟨k, hk, State.answered_of_ledger_prefix hprefix (by simpa using htaken)⟩
  · obtain ⟨k, hk, hready⟩ := hfair.exists_drivesReady hrun hinv hhost
    exact ⟨k, hk, (hrun.reqReady_succ hinv (hhost k hk).1).trans hready⟩

end Sys2Proof.Machine
end
